-- ==== Sys2Proof/Word.lean ====
section
/-! DEFINITION. The word types of the block and a fixed collection of ten like things.
Every command, payload, response and register word is 32 bits (00_scope.md R6 `WORD`, 20_memory.md R64). -/

namespace Sys2Proof

/-- A 32-bit command, payload, response or register word (00_scope.md R6). -/
abbrev Word := BitVec 32

/-- A byte of a byte-serial transport of the streams (20_memory.md R64). -/
abbrev Byte := BitVec 8

/-- Ten like things, one per oscillator, in the index order of 40_oscillator_bank.md R100. -/
structure Ten (α : Type) where
  e0 : α
  e1 : α
  e2 : α
  e3 : α
  e4 : α
  e5 : α
  e6 : α
  e7 : α
  e8 : α
  e9 : α
  deriving DecidableEq, Repr

/-- The entry of index `i`. -/
def Ten.get {α : Type} (t : Ten α) (i : Fin 10) : α :=
  match i with
  | 0 => t.e0
  | 1 => t.e1
  | 2 => t.e2
  | 3 => t.e3
  | 4 => t.e4
  | 5 => t.e5
  | 6 => t.e6
  | 7 => t.e7
  | 8 => t.e8
  | 9 => t.e9

/-- The ten values of a function of the index. -/
def Ten.ofFn {α : Type} (f : Fin 10 → α) : Ten α :=
  ⟨f 0, f 1, f 2, f 3, f 4, f 5, f 6, f 7, f 8, f 9⟩

/-- Ten copies of one value. -/
def Ten.replicate {α : Type} (a : α) : Ten α := Ten.ofFn fun _ => a

/-- The same ten entries with entry `i` replaced. -/
def Ten.set {α : Type} (t : Ten α) (i : Fin 10) (a : α) : Ten α :=
  Ten.ofFn fun j => if j = i then a else t.get j

/-- The ten entries in index order. -/
def Ten.toList {α : Type} (t : Ten α) : List α :=
  [t.e0, t.e1, t.e2, t.e3, t.e4, t.e5, t.e6, t.e7, t.e8, t.e9]

/-- The ten entries added up in index order. -/
def Ten.sum (t : Ten Int) : Int :=
  t.e0 + t.e1 + t.e2 + t.e3 + t.e4 + t.e5 + t.e6 + t.e7 + t.e8 + t.e9

end Sys2Proof
end

