-- ==== Sys2Proof/Config.lean ====
section
/-! DEFINITION. The constants of this hardware (00_scope.md R6) and its one open parameter.
The number of oscillators, ten, is the size of `Ten` and of `Fin 10`. -/

namespace Sys2Proof.Config

/-- The frequency table FREQ[0..9] in Hz (40_oscillator_bank.md R100). -/
def freq : Ten Nat := ⟨174, 285, 396, 417, 432, 528, 639, 741, 852, 963⟩

/-- The lowest legal sample rate FS_MIN in Hz (40_oscillator_bank.md R110). -/
abbrev fsMin : Nat := 8000

/-- The highest legal sample rate FS_MAX in Hz (40_oscillator_bank.md R110). -/
abbrev fsMax : Nat := 384000

/-- The greatest number of channels of a frame, NCH_MAX (00_scope.md R6). -/
abbrev maxChannels : Nat := 8

/-- The control code of 1.0, UNITY (10_state.md R24). -/
abbrev unity : Nat := 65536

/-- The read-only ID register (10_state.md R28). -/
def id : Word := 0x534F4C46

/-- The read-only VERSION register (10_state.md R29). -/
def version : Word := 0x00000001

/-- FRAME_LATENCY_MAX, the clock cycles a FRAME may take: the one parameter the spec leaves OPEN
(00_scope.md R6, 70_reset_and_hazards.md R245). No rule depends on it and nothing in the model
reads it (DEDUCED, log 13). -/
opaque frameLatencyMax : Nat

end Sys2Proof.Config
end

