-- ==== Sys2Proof/Syntax.lean ====
section
/-! DEFINITION. The five commands of the command stream with their operands
(30_encoding.md R82, R83; spec/opcode_table.json). -/

namespace Sys2Proof

/-- A command with its whole payload, one constructor per row of the opcode table. -/
inductive Instr where
  /-- NOP (43_control_commands.md R180). -/
  | nop
  /-- WRREG: write payload word `data` to register index `reg` (43_control_commands.md R181). -/
  | wrreg (reg : BitVec 8) (data : Word)
  /-- RDREG: emit the value of register index `reg` (43_control_commands.md R184). -/
  | rdreg (reg : BitVec 8)
  /-- REINIT: re-initialize at the sample rate `fs` in Hz (40_oscillator_bank.md R111). -/
  | reinit (fs : Word)
  /-- FRAME: process one sample position; one payload word a channel (42_mixing_engine.md R150). -/
  | frame (samples : List Word)
  deriving DecidableEq, Repr

end Sys2Proof
end

