-- ==== Sys2Proof/WellFormed.lean ====
section
/-! DEFINITION. The commands an encoding exists for. The one check is FRAME's channel count:
C = CM1 + 1 lies in 1 to 8, "So a frame of zero channels cannot be encoded" (30_encoding.md R83). -/

namespace Sys2Proof

/-- The command has an encoding: a FRAME has 1 to 8 channels; every other term has one. -/
def Instr.wellFormed : Instr → Bool
  | .frame xs => decide (1 ≤ xs.length) && decide (xs.length ≤ Config.maxChannels)
  | .nop => true
  | .wrreg _ _ => true
  | .rdreg _ => true
  | .reinit _ => true

end Sys2Proof
end

