-- ==== Sys2Proof/Decode.lean ====
section
/-! DEFINITION. The command decoder of 30_encoding.md R84 and R86, total on every list of words, the
byte order of a byte-serial transport (20_memory.md R64), and the encoder of R82 and R89. -/

namespace Sys2Proof

/-! ### The command word -/

/-- The opcode field `OP = cmd[31:28]` (30_encoding.md R81). -/
def opField (cmd : Word) : BitVec 4 := cmd.extractLsb' 28 4

/-- The payload length `L(cmd)` (30_encoding.md R84): it reads `cmd[31:28]` and `cmd[2:0]` only. -/
def payloadLen (cmd : Word) : Nat :=
  if opField cmd = 1#4 ∨ opField cmd = 3#4 then 1
  else if opField cmd = 4#4 then (cmd.extractLsb' 0 3).toNat + 1
  else 0

/-- What the decoder says of a command word (30_encoding.md R86). -/
inductive Verdict where
  | illegal
  | reserved
  | nop
  | wrreg (reg : BitVec 8)
  | rdreg (reg : BitVec 8)
  | reinit
  | frame (channels : Nat)
  deriving DecidableEq, Repr

/-- The decoder's verdict on a command word, its checks in the order of 30_encoding.md R86. -/
def verdict (cmd : Word) : Verdict :=
  if 4#4 < opField cmd then .illegal
  else if opField cmd = 0#4 ∧ cmd.extractLsb' 0 28 ≠ 0 then .reserved
  else if opField cmd = 1#4 ∧ cmd.extractLsb' 8 20 ≠ 0 then .reserved
  else if opField cmd = 2#4 ∧ cmd.extractLsb' 8 20 ≠ 0 then .reserved
  else if opField cmd = 3#4 ∧ cmd.extractLsb' 0 28 ≠ 0 then .reserved
  else if opField cmd = 4#4 ∧ cmd.extractLsb' 3 25 ≠ 0 then .reserved
  else if opField cmd = 0#4 then .nop
  else if opField cmd = 1#4 then .wrreg (cmd.extractLsb' 0 8)
  else if opField cmd = 2#4 then .rdreg (cmd.extractLsb' 0 8)
  else if opField cmd = 3#4 then .reinit
  else .frame ((cmd.extractLsb' 0 3).toNat + 1)

/-! ### Whole commands -/

/-- Why a list of words does not begin with a command. -/
inductive Reject where
  /-- An opcode 0x5 to 0xF (30_encoding.md R87). -/
  | illegal
  /-- A must-be-zero bit is set (30_encoding.md R87). -/
  | reserved
  /-- The words end before the command's last payload word (20_memory.md R75). -/
  | incomplete
  deriving DecidableEq, Repr

/-- The result of decoding: a command and the words after it, or why there is none. -/
inductive Decoded where
  | ok (i : Instr) (rest : List Word)
  | reject (why : Reject)
  deriving DecidableEq, Repr

/-- The command that a verdict and its payload make up, followed by the words `rest`. -/
def withPayload (v : Verdict) (payload rest : List Word) : Decoded :=
  match v, payload with
  | .illegal, _ => .reject .illegal
  | .reserved, _ => .reject .reserved
  | .nop, _ => .ok .nop rest
  | .wrreg reg, data :: _ => .ok (.wrreg reg data) rest
  | .rdreg reg, _ => .ok (.rdreg reg) rest
  | .reinit, fs :: _ => .ok (.reinit fs) rest
  | .frame _, xs => .ok (.frame xs) rest
  | .wrreg _, [] => .reject .incomplete
  | .reinit, [] => .reject .incomplete

/-- Decodes the command a list of words begins with: the command word, then `L(cmd)` payload words
(30_encoding.md R80, R84, R86). Any list of words has a result. -/
def decode (ws : List Word) : Decoded :=
  match ws with
  | [] => .reject .incomplete
  | cmd :: rest =>
    if rest.length < payloadLen cmd then .reject .incomplete
    else withPayload (verdict cmd) (rest.take (payloadLen cmd)) (rest.drop (payloadLen cmd))

/-! ### Byte-serial transport -/

/-- The four bytes of a word on a byte-serial transport, byte 0 (bits 7:0) first
(20_memory.md R64: BYTE_ORDER is little-endian). -/
def bytesOfWord (w : Word) : List Byte :=
  [w.extractLsb' 0 8, w.extractLsb' 8 8, w.extractLsb' 16 8, w.extractLsb' 24 8]

/-- The whole words of a byte-serial transport (20_memory.md R64); one to three bytes at the end make
no word yet (DEDUCED, log 15). -/
def wordsOfBytes : List Byte → List Word
  | b0 :: b1 :: b2 :: b3 :: rest => (b3 ++ b2 ++ b1 ++ b0) :: wordsOfBytes rest
  | _ => []

/-- Decodes the command a list of bytes begins with. -/
def decodeBytes (bs : List Byte) : Decoded := decode (wordsOfBytes bs)

/-! ### The encoder -/

/-- The command word of a command (30_encoding.md R82, R89). -/
def commandWord : Instr → Word
  | .nop => 0x00000000
  | .wrreg reg _ => 0x10000000 ||| reg.setWidth 32
  | .rdreg reg => 0x20000000 ||| reg.setWidth 32
  | .reinit _ => 0x30000000
  | .frame xs => 0x40000000 ||| BitVec.ofNat 32 (xs.length - 1)

/-- The payload words of a command (30_encoding.md R82). -/
def payloadOf : Instr → List Word
  | .nop => []
  | .wrreg _ data => [data]
  | .rdreg _ => []
  | .reinit fs => [fs]
  | .frame xs => xs

/-- The words of a command on the command stream (30_encoding.md R80, R89). -/
def encode (i : Instr) : List Word := commandWord i :: payloadOf i

/-! ### The opcode table's numbering of an instruction's bits -/

/-- An instruction whose low `nbits` bits are those of `w` and whose further bits are 0, as nine words
(the longest command), the first word holding the least significant bits. -/
def tableWords (nbits w : Nat) : List Word :=
  [0, 1, 2, 3, 4, 5, 6, 7, 8].map fun k => BitVec.ofNat 32 (w % 2 ^ nbits / 2 ^ (32 * k))

/-- The command the decoder reads from such an instruction, none where it rejects it. -/
def decodeTableWord (nbits w : Nat) : Option Instr :=
  match decode (tableWords nbits w) with
  | .ok i _ => some i
  | .reject _ => none

end Sys2Proof
end

