-- ==== Sys2Proof/Machine/Fixed.lean ====
section
/-! DEFINITION. The integer notation and the two rounding divisions of 00_scope.md R7 and R8. -/

namespace Sys2Proof.Machine

/-- `s32(w)`: a word read as two's complement (00_scope.md R7). -/
def s32 (w : Word) : Int := w.toInt

/-- `u32(v)`: the word with the bits of `v` (00_scope.md R7). -/
def u32 (v : Int) : Word := BitVec.ofInt 32 v

/-- `rdiv(n, d)`: nearest, a tie away from zero (00_scope.md R8). -/
def rdiv (n : Int) (d : Nat) : Int := n.sign * ((2 * n.natAbs + d) / (2 * d) : Nat)

/-- `tdiv(n, d)`: truncation toward zero (00_scope.md R8). -/
def tdiv (n : Int) (d : Nat) : Int := n.sign * (n.natAbs / d : Nat)

end Sys2Proof.Machine
end

