-- ==== Sys2Proof/Machine/State.lean ====
section
/-! DEFINITION. The state of the block (10_state.md R47, R48, R50, R51), the host's side of its two
streams and its pins (20_memory.md R60, R61), the reasons a step can stop, and the state after reset. -/

namespace Sys2Proof.Machine

/-- The cause codes STATUS.CAUSE can hold (60_exceptions.md R201). Codes 7 to 15 are "never" raised
and have no name here (DEDUCED, log 9). -/
inductive Cause where
  | none
  | illegalOpcode
  | reservedField
  | badRegRead
  | badRegWrite
  | badRate
  | notInit
  deriving DecidableEq, Repr

/-- One smoother (10_state.md R26, R48). Its ranges are an invariant, not part of the type (DESIGN CHOICE, log 8). -/
structure Smoother where
  /-- The control code the smoother ramps to, 0 to 65536. -/
  target : Nat
  /-- The accumulator, 0 to 2^32; the presented code is `acc >> 16`. -/
  acc : Int
  /-- What an advance adds to `acc` while a ramp is in progress, -2^32 to 2^32. -/
  step : Int
  /-- How many more advances the ramp in progress takes. -/
  left : Nat
  deriving DecidableEq, Repr

/-- The whole state: the record of 10_state.md R51, the hidden state of R50, and the host's side. -/
structure State where
  /-- STATUS.INIT (10_state.md R30). -/
  init : Bool
  /-- STATUS.FAULT (10_state.md R30). -/
  fault : Bool
  /-- STATUS.CAUSE (10_state.md R30). -/
  cause : Cause
  /-- CTRL.SCLINK (10_state.md R31). -/
  sclink : Bool
  /-- ACTIVE_RATE (10_state.md R32). -/
  activeRate : Word
  /-- RAMP_LEN (10_state.md R33). -/
  rampLen : Nat
  /-- FRAME_COUNT (10_state.md R34). -/
  frameCount : Word
  /-- FAULT_CMD (10_state.md R35). -/
  faultCmd : Word
  /-- FAULT_ARG (10_state.md R36). -/
  faultArg : Word
  /-- The mix smoother (10_state.md R37 to R39, R48). -/
  mix : Smoother
  /-- The ten gain smoothers (10_state.md R40 to R42, R48). -/
  gain : Ten Smoother
  /-- PHASE[0..9] (10_state.md R43). -/
  phase : Ten Word
  /-- PHASE_INC[0..9] (10_state.md R44). -/
  inc : Ten Word
  /-- The command pointer (10_state.md R21). -/
  cp : Nat
  /-- Hidden: the words taken of a command whose payload is not complete (10_state.md R50, DEDUCED, log 2). -/
  taken : List Word
  /-- Hidden: response words emitted and not yet accepted by the host, oldest first (10_state.md R50). -/
  rsp : List Word
  /-- Host's side: the level of the pin `rst_n` (20_memory.md R60). -/
  rstN : Bool
  /-- Host's side: the words offered on the command stream and not yet taken, in order (20_memory.md R63). -/
  cmdIn : List Word
  /-- Host's side: the level of the pin `rsp_ready` (20_memory.md R60). -/
  rspReady : Bool
  /-- Host's side: the response words the host has accepted, oldest first (20_memory.md R61). -/
  received : List Word
  deriving DecidableEq, Repr

/-- Why the model stops. The block's own faults are no stop: they are the state of 60_exceptions.md R200. -/
inductive Fault where
  /-- Raised by `execFrame` on a FRAME term with no or more than eight samples, which no word decodes to
  (30_encoding.md R83): safe, since `step` never raises it (DESIGN CHOICE, log 11). -/
  | illFormedFrame
  deriving DecidableEq, Repr

/-- Why the model has no answer. -/
inductive Refusal where
  /-- Raised by `exec` for an instruction that has no meaning yet: safe; no arm of this model does. -/
  | notModelled (mnemonic : String)
  deriving DecidableEq, Repr

/-- A smoother after reset (70_reset_and_hazards.md R231). -/
def Smoother.reset : Smoother := { target := 0, acc := 0, step := 0, left := 0 }

/-- The machine right after reset (70_reset_and_hazards.md R231, R232). The host's side holds nothing
and its two pins are 1: the first cycle of normal operation with a host that is ready (DESIGN CHOICE, log 4). -/
def State.reset : State :=
  { init := false
    fault := false
    cause := .none
    sclink := false
    activeRate := 0
    rampLen := 0
    frameCount := 0
    faultCmd := 0
    faultArg := 0
    mix := Smoother.reset
    gain := Ten.replicate Smoother.reset
    phase := Ten.replicate 0
    inc := Ten.replicate 0
    cp := 0
    taken := []
    rsp := []
    rstN := true
    cmdIn := []
    rspReady := true
    received := [] }

end Sys2Proof.Machine
end

