-- ==== Sys2Proof/Machine/Flags.lean ====
section
/-! DEFINITION. The status flags (10_state.md R30, R49) and the interrupt output (60_exceptions.md R220).
The block has no condition codes and no arithmetic flags (R49). -/

namespace Sys2Proof.Machine

/-- The cause code of STATUS.CAUSE (60_exceptions.md R201). -/
def Cause.code : Cause → Nat
  | .none => 0
  | .illegalOpcode => 1
  | .reservedField => 2
  | .badRegRead => 3
  | .badRegWrite => 4
  | .badRate => 5
  | .notInit => 6

/-- STATUS.RAMPING: any of the eleven smoothers has `left > 0`; computed, not stored (10_state.md R30). -/
def State.ramping (s : State) : Bool :=
  decide (0 < s.mix.left) || (s.gain.toList.any fun g => decide (0 < g.left))

/-- `STATUS = INIT | (FAULT << 1) | (RAMPING << 2) | (CAUSE << 8)` (10_state.md R30). -/
def State.status (s : State) : Word :=
  BitVec.ofNat 32 s.init.toNat ||| (BitVec.ofNat 32 s.fault.toNat <<< 1) |||
    (BitVec.ofNat 32 s.ramping.toNat <<< 2) ||| (BitVec.ofNat 32 s.cause.code <<< 8)

/-- CTRL: SCLINK in bit 0, every other bit reads 0 (10_state.md R31). -/
def State.ctrl (s : State) : Word := BitVec.ofNat 32 s.sclink.toNat

end Sys2Proof.Machine
end

