-- ==== Sys2Proof/Machine/Operands.lean ====
section
/-! DEFINITION. The one operand form that names state: an absolute register index
(43_control_commands.md R187), its register (10_state.md R27) and that register's value (R28 to R45,
43_control_commands.md R186). The other operands are payload words (30_encoding.md R83). -/

namespace Sys2Proof.Machine

/-- A mapped register of the register space (10_state.md R27). -/
inductive Reg where
  | id
  | version
  | status
  | ctrl
  | activeRate
  | rampLen
  | frameCount
  | faultCmd
  | faultArg
  | mixTarget
  | mixCurrent
  | mixLeft
  | gainTarget (i : Fin 10)
  | gainCurrent (i : Fin 10)
  | gainLeft (i : Fin 10)
  | phase (i : Fin 10)
  | phaseInc (i : Fin 10)
  | freq (i : Fin 10)
  deriving DecidableEq, Repr

/-- The register of a bank of ten indices that starts at `base`, none outside the bank. -/
def bankReg (base : Nat) (reg : Fin 10 → Reg) (n : Nat) : Option Reg :=
  if h : base ≤ n ∧ n - base < 10 then some (reg ⟨n - base, h.2⟩) else none

/-- The register an index names, none for a reserved index (10_state.md R27, R46). -/
def regAt (index : BitVec 8) : Option Reg :=
  match index.toNat with
  | 0x00 => some .id
  | 0x01 => some .version
  | 0x02 => some .status
  | 0x03 => some .ctrl
  | 0x04 => some .activeRate
  | 0x05 => some .rampLen
  | 0x06 => some .frameCount
  | 0x07 => some .faultCmd
  | 0x08 => some .faultArg
  | 0x09 => some .mixTarget
  | 0x0A => some .mixCurrent
  | 0x0B => some .mixLeft
  | n =>
    (bankReg 0x10 .gainTarget n).or <| (bankReg 0x20 .gainCurrent n).or <|
      (bankReg 0x30 .gainLeft n).or <| (bankReg 0x40 .phase n).or <|
        (bankReg 0x50 .phaseInc n).or (bankReg 0x60 .freq n)

/-- The index of a register (10_state.md R27). -/
def Reg.index : Reg → BitVec 8
  | .id => 0x00
  | .version => 0x01
  | .status => 0x02
  | .ctrl => 0x03
  | .activeRate => 0x04
  | .rampLen => 0x05
  | .frameCount => 0x06
  | .faultCmd => 0x07
  | .faultArg => 0x08
  | .mixTarget => 0x09
  | .mixCurrent => 0x0A
  | .mixLeft => 0x0B
  | .gainTarget i => 0x10 + BitVec.ofNat 8 i.val
  | .gainCurrent i => 0x20 + BitVec.ofNat 8 i.val
  | .gainLeft i => 0x30 + BitVec.ofNat 8 i.val
  | .phase i => 0x40 + BitVec.ofNat 8 i.val
  | .phaseInc i => 0x50 + BitVec.ofNat 8 i.val
  | .freq i => 0x60 + BitVec.ofNat 8 i.val

/-- A smoother's present value `acc >> 16`, a control code (41_parameter_smoothing.md R135). -/
def Smoother.code (s : Smoother) : Int := s.acc / 65536

/-- `value(REG)`: the contents of a register (43_control_commands.md R186). -/
def State.value (s : State) : Reg → Word
  | .id => Config.id
  | .version => Config.version
  | .status => s.status
  | .ctrl => s.ctrl
  | .activeRate => s.activeRate
  | .rampLen => BitVec.ofNat 32 s.rampLen
  | .frameCount => s.frameCount
  | .faultCmd => s.faultCmd
  | .faultArg => s.faultArg
  | .mixTarget => BitVec.ofNat 32 s.mix.target
  | .mixCurrent => u32 s.mix.code
  | .mixLeft => BitVec.ofNat 32 s.mix.left
  | .gainTarget i => BitVec.ofNat 32 (s.gain.get i).target
  | .gainCurrent i => u32 (s.gain.get i).code
  | .gainLeft i => BitVec.ofNat 32 (s.gain.get i).left
  | .phase i => s.phase.get i
  | .phaseInc i => s.inc.get i
  | .freq i => BitVec.ofNat 32 (Config.freq.get i)

end Sys2Proof.Machine
end

