-- ==== Sys2Proof/Machine/Sine.lean ====
section
/-! DEFINITION. The sine unit of 40_oscillator_bank.md R102: `2^24 * sin(2*pi*p / 2^32)` correctly
rounded (SIN_TOL = 0), computed in integers.

The unit works on `2*cos(2*pi*q / 2^k)`, which the half-angle formula builds from level to level:
`(2*cos a)^2 = 2 + 2*cos 2a`. Integer square roots give bounds of the value at `sinePrec` bits; where
the two bounds round to one integer, that is the answer. Where they do not, an exact comparison with
rationals decides, so the answer is the correctly rounded one for every phase (DEDUCED, log 7). -/

namespace Sys2Proof.Machine

/-- The integer square root of `n`, given a root `r` of its high bits; `k` bits are still to come. -/
def isqrtFrom : Nat → Nat → Nat → Nat
  | 0, _, r => r
  | k + 1, n, r =>
    if (r + 2 ^ k) * (r + 2 ^ k) ≤ n then isqrtFrom k n (r + 2 ^ k) else isqrtFrom k n r

/-- `cos(2*pi*q / 2^k) >= 0`: the angle lies in the first or the last quarter turn. -/
def cosNonneg (k q : Nat) : Bool :=
  decide (4 * (q % 2 ^ k) ≤ 2 ^ k) || decide (3 * 2 ^ k ≤ 4 * (q % 2 ^ k))

/-- A lower and an upper bound. -/
structure Bounds where
  lo : Int
  hi : Int
  deriving DecidableEq, Repr

/-- Bounds of `2^b * 2*cos(2*pi*q / 2^k)`, by the half-angle formula from level to level. -/
def cosBounds (b : Nat) : Nat → Nat → Bounds
  | 0, _ => ⟨2 * 2 ^ b, 2 * 2 ^ b⟩
  | k + 1, q =>
    let w := cosBounds b k q
    let lo := isqrtFrom (b + 2) ((2 * 2 ^ b + w.lo).toNat * 2 ^ b) 0
    let hi := isqrtFrom (b + 2) ((2 * 2 ^ b + min w.hi (2 * 2 ^ b)).toNat * 2 ^ b) 0 + 1
    if cosNonneg (k + 1) q then ⟨lo, hi⟩ else ⟨-hi, -lo⟩

/-- The exact comparison of `2*cos(2*pi*q / 2^k)` with the rational `a / 2^e`: two numbers of one sign
compare as their squares do, and the square of the cosine is the level below. -/
def cosCompare : Nat → Nat → Int → Nat → Ordering
  | 0, _, a, e => compare (2 * 2 ^ e : Int) a
  | k + 1, q, a, e =>
    if cosNonneg (k + 1) q then
      if a < 0 then .gt else cosCompare k q (a * a - 2 * 4 ^ e) (2 * e)
    else
      if 0 ≤ a then .lt else (cosCompare k q (a * a - 2 * 4 ^ e) (2 * e)).swap

/-- The greatest `n` with `2^24 * cos(2*pi*q / 2^32) >= n - 1/2`, found bit by bit with the exact
comparison; `k` bits are still to come. -/
def roundExact (q : Nat) : Nat → Nat → Nat
  | 0, n => n
  | k + 1, n =>
    if cosCompare 32 q (2 * (n + 2 ^ k : Nat) - 1) 24 = .lt then roundExact q k n
    else roundExact q k (n + 2 ^ k)

/-- The working precision of the bounds, in bits. -/
def sinePrec : Nat := 96

/-- `floor(2^24 * (x / 2^(b+1)) + 1/2)` for `x` in units of `2^-b` of twice the cosine. -/
def roundScaled (b : Nat) (x : Int) : Int := (2 * x + 2 ^ (b - 23)) / 2 ^ (b - 22)

/-- `floor(2^24 * cos(2*pi*q / 2^32) + 1/2)` for an angle in the first quarter turn. -/
def cosRound (q : Nat) : Int :=
  let w := cosBounds sinePrec 32 q
  if roundScaled sinePrec w.lo = roundScaled sinePrec w.hi then roundScaled sinePrec w.lo
  else roundExact q 25 0

/-- The sine of a phase `p <= 2^31`, where it is not negative: `sin` at `p` is `cos` at the distance of
`p` from the quarter turn `2^30`. -/
def sineHalf (p : Nat) : Int := cosRound ((p - 2 ^ 30) + (2 ^ 30 - p))

/-- The sine unit `sinq(p)` (40_oscillator_bank.md R102): the second half turn is the first one negated,
so a tie would go away from zero on both. -/
def sinq (p : Word) : Int :=
  if p.toNat ≤ 2 ^ 31 then sineHalf p.toNat else -sineHalf (p.toNat - 2 ^ 31)

end Sys2Proof.Machine
end

