-- ==== Sys2Proof/Machine/Ops.lean ====
section
/-! DEFINITION. The named operations of the block: smoothers, oscillators, fault entry, the fault
state's filter, responses and reset. -/

namespace Sys2Proof.Machine

/-! ### Smoothers (41_parameter_smoothing.md) -/

/-- `write_target(s, data)` (41_parameter_smoothing.md R132), at the ramp length `n`. -/
def Smoother.writeTarget (n : Nat) (data : Word) (s : Smoother) : Smoother :=
  let t := min data.toNat Config.unity
  if t = s.target then s
  else if n = 0 then { target := t, acc := t * 2 ^ 16, step := 0, left := 0 }
  else { target := t, acc := s.acc, step := tdiv (t * 2 ^ 16 - s.acc) n, left := n }

/-- `advance(s)` (41_parameter_smoothing.md R134): the smoother after one advance. The code it returns
is the `Smoother.code` of the result. -/
def Smoother.advance (s : Smoother) : Smoother :=
  if s.left = 0 then s
  else if s.left = 1 then { s with left := 0, acc := s.target * 2 ^ 16 }
  else { s with left := s.left - 1, acc := s.acc + s.step }

/-- `snap(s)` (41_parameter_smoothing.md R136). -/
def Smoother.snap (s : Smoother) : Smoother :=
  { s with acc := s.target * 2 ^ 16, step := 0, left := 0 }

/-! ### Oscillators (40_oscillator_bank.md) -/

/-- The increment of a frequency at a sample rate (40_oscillator_bank.md R106). -/
def phaseIncrement (freq fs : Nat) : Word := u32 (rdiv (freq * 2 ^ 32 : Nat) fs)

/-- The ten tone values of a bank advance: the sines of the phases before it (40_oscillator_bank.md R104,
R108). -/
def tones (phase : Ten Word) : Ten Int := Ten.ofFn fun i => sinq (phase.get i)

/-- The ten phases after a bank advance: the increments added modulo 2^32 (40_oscillator_bank.md R104,
R105, R108). -/
def advancePhases (phase inc : Ten Word) : Ten Word := Ten.ofFn fun i => phase.get i + inc.get i

/-! ### Responses -/

/-- `Emit` of several words in order (00_scope.md R9). -/
def State.emit (s : State) (ws : List Word) : State := { s with rsp := s.rsp ++ ws }

/-! ### The fault state (60_exceptions.md) -/

/-- `raise Fault(cause, arg)` inside the command whose first word is `cmd` (60_exceptions.md R210): the
block's one exception entry. It saves the cause, the command word and the argument, and nothing else
(R211). -/
def State.raiseFault (s : State) (cmd : Word) (cause : Cause) (arg : Word) : State :=
  { s with fault := true, cause := cause, faultCmd := cmd, faultArg := arg }

/-- In the fault state a command is discarded (60_exceptions.md R212); otherwise it does `act`. -/
def unlessFaulted (s : State) (act : Host.Outcome State Fault Refusal) :
    Host.Outcome State Fault Refusal :=
  if s.fault then .next s else act

/-- What an illegal or reserved word does with its payload (60_exceptions.md R212, 30_encoding.md R87).
It is the whole of such a command: the decoder gives no instruction for it. An incomplete command has
no effect (20_memory.md R75). -/
def State.rejectWord (s : State) (why : Reject) (cmd : Word) (payload : List Word) : State :=
  if s.fault then s
  else match why with
    | .illegal => s.raiseFault cmd .illegalOpcode 0
    | .reserved => s.raiseFault cmd .reservedField (payload.headD 0)
    | .incomplete => s

/-- Reset, the one way out of the fault state (60_exceptions.md R215): a rising edge with `rst_n = 0`
puts every piece of the block's state into its reset value and discards the words of an unfinished
command and the responses not yet accepted (70_reset_and_hazards.md R230 to R232). The host's side is
not the block's and stays. -/
def State.resetEdge (s : State) : State :=
  { State.reset with
    rstN := s.rstN, cmdIn := s.cmdIn, rspReady := s.rspReady, received := s.received }

end Sys2Proof.Machine
end

