-- ==== Sys2Proof/Machine/Bank.lean ====
section
/-! DEFINITION. REINIT, which builds the oscillator bank at a sample rate (40_oscillator_bank.md R111). -/

namespace Sys2Proof.Machine

/-- The state after a REINIT at a legal rate `fs` (40_oscillator_bank.md R111). -/
def State.reinitAt (s : State) (fs : Word) : State :=
  { s with
    activeRate := fs
    rampLen := (rdiv fs.toNat 100).toNat
    inc := Ten.ofFn fun i => phaseIncrement (Config.freq.get i) fs.toNat
    phase := Ten.replicate 0
    mix := s.mix.snap
    gain := Ten.ofFn fun i => (s.gain.get i).snap
    frameCount := 0
    init := true }

/-- REINIT (40_oscillator_bank.md R111): fault entry with BAD_RATE for a rate outside 8000 to 384000
(R110), otherwise the bank at that rate. -/
def execReinit (fs : Word) (s : State) : Host.Outcome State Fault Refusal :=
  unlessFaulted s <|
    if fs.toNat < Config.fsMin ∨ Config.fsMax < fs.toNat then
      .next (s.raiseFault (commandWord (.reinit fs)) .badRate fs)
    else .next (s.reinitAt fs)

end Sys2Proof.Machine
end

