-- ==== Sys2Proof/Machine/Control.lean ====
section
/-! DEFINITION. The control commands NOP, WRREG and RDREG (43_control_commands.md). -/

namespace Sys2Proof.Machine

/-- NOP (43_control_commands.md R180): nothing, in the fault state too. -/
def execNop (s : State) : Host.Outcome State Fault Refusal := unlessFaulted s (.next s)

/-- The state after a write of `data` to a register, none where the register is not writable
(43_control_commands.md R183). -/
def State.writeReg (s : State) (data : Word) : Reg → Option State
  | .ctrl => some { s with sclink := data.getLsbD 0 }
  | .mixTarget => some { s with mix := s.mix.writeTarget s.rampLen data }
  | .gainTarget i =>
    some { s with gain := s.gain.set i ((s.gain.get i).writeTarget s.rampLen data) }
  | .id => none
  | .version => none
  | .status => none
  | .activeRate => none
  | .rampLen => none
  | .frameCount => none
  | .faultCmd => none
  | .faultArg => none
  | .mixCurrent => none
  | .mixLeft => none
  | .gainCurrent _ => none
  | .gainLeft _ => none
  | .phase _ => none
  | .phaseInc _ => none
  | .freq _ => none

/-- WRREG (43_control_commands.md R181): the write, or fault entry with BAD_REG_WRITE and the data
(R182). -/
def execWrreg (reg : BitVec 8) (data : Word) (s : State) : Host.Outcome State Fault Refusal :=
  unlessFaulted s <|
    match (regAt reg).bind (s.writeReg data) with
    | some t => .next t
    | none => .next (s.raiseFault (commandWord (.wrreg reg data)) .badRegWrite data)

/-- RDREG (43_control_commands.md R184): one response word. It answers in the fault state too; of a
reserved index it enters the fault state with BAD_REG_READ and argument 0 (R185), and in the fault
state it is discarded (60_exceptions.md R212). -/
def execRdreg (reg : BitVec 8) (s : State) : Host.Outcome State Fault Refusal :=
  match regAt reg with
  | some r => .next (s.emit [s.value r])
  | none => unlessFaulted s (.next (s.raiseFault (commandWord (.rdreg reg)) .badRegRead 0))

end Sys2Proof.Machine
end

