-- ==== Sys2Proof/Machine/Mixer.lean ====
section
/-! DEFINITION. FRAME: the mixing engine, the sidechain detector and the amplitude modulator
(42_mixing_engine.md). -/

namespace Sys2Proof.Machine

/-- The gain gate: tone i is active when `1000 * g > 65536` (42_mixing_engine.md R153). -/
def toneActive (g : Int) : Bool := decide (65536 < 1000 * g)

/-- What a tone `t` of gain code `g` adds to the sum (42_mixing_engine.md R153, R154). -/
def contribution (t g : Int) : Int := if toneActive g then rdiv (t * g) 655360 else 0

/-- `S`, the solfeggio_sum of a frame, from its tones and its advanced gains (42_mixing_engine.md R154). -/
def toneSum (t : Ten Int) (gain : Ten Smoother) : Int :=
  Ten.sum (Ten.ofFn fun i => contribution (t.get i) (gain.get i).code)

/-- The detector amplitude A of a channel with sample `x` of the frame `xs` (42_mixing_engine.md R155). -/
def detector (linked : Bool) (xs : List Int) (x : Int) : Nat :=
  if linked then (xs.map Int.natAbs).foldl max 0 else x.natAbs

/-- `SCN`, the sidechain gain in units of `1 / (10 * 2^25)` (42_mixing_engine.md R156). -/
def sidechain (a : Nat) : Int := if 7 * 2 ^ 25 ≤ 10 * a then 3 * 2 ^ 25 else 10 * (2 ^ 25 - a)

/-- `NUM`, the exact output in units of `2^-24 / (10 * 2^41)` (42_mixing_engine.md R157). -/
def modulatorNum (m sum scn x : Int) : Int := x * (655360 - 3 * m) * 2 ^ 25 + sum * m * scn

/-- `Y`, the output sample: one rounding and the clamp that never acts (42_mixing_engine.md R150, R157,
R158). -/
def modulate (m sum scn x : Int) : Int :=
  max (-2 ^ 31) (min (2 ^ 31 - 1) (rdiv (modulatorNum m sum scn x) (10 * 2 ^ 41)))

/-- The output samples of a frame of input samples `xs`, in channel order (42_mixing_engine.md R150). -/
def frameOutputs (linked : Bool) (m sum : Int) (xs : List Int) : List Int :=
  xs.map fun x => modulate m sum (sidechain (detector linked xs x)) x

/-- The state after the steps of a frame that advance state (42_mixing_engine.md R151 to R153, R159):
every smoother and every phase once, and the frame counter, whatever the channel count (R160). -/
def State.advanceFrame (s : State) : State :=
  { s with
    mix := s.mix.advance
    gain := Ten.ofFn fun i => (s.gain.get i).advance
    phase := advancePhases s.phase s.inc
    frameCount := s.frameCount + 1 }

/-- The output samples of a frame run in state `s`: the tones come from the phases before the advance,
the mix and the gains from the smoothers after it (42_mixing_engine.md R151 to R157). -/
def State.frameOut (s : State) (samples : List Word) : List Int :=
  frameOutputs s.sclink s.mix.advance.code
    (toneSum (tones s.phase) (Ten.ofFn fun i => (s.gain.get i).advance)) (samples.map s32)

/-- FRAME (42_mixing_engine.md R150): fault entry with NOT_INIT before the first REINIT, otherwise one
sample position. A term with no or more than eight samples is no command (DESIGN CHOICE, log 11). -/
def execFrame (samples : List Word) (s : State) : Host.Outcome State Fault Refusal :=
  if (Instr.frame samples).wellFormed then
    unlessFaulted s <|
      if s.init then .next (s.advanceFrame.emit ((s.frameOut samples).map u32))
      else .next (s.raiseFault (commandWord (.frame samples)) .notInit (samples.headD 0))
  else .fault .illFormedFrame

end Sys2Proof.Machine
end

