-- ==== Sys2Proof/Machine/Dispatch.lean ====
section
/-! DEFINITION. The dispatch of a command to its meaning, one arm per constructor of Instr. -/

namespace Sys2Proof.Machine

open Sys2Proof

def exec (i : Instr) (s : State) : Host.Outcome State Fault Refusal :=
  match i with
  | .nop => Sys2Proof.Machine.execNop s
  | .wrreg reg data => Sys2Proof.Machine.execWrreg reg data s
  | .rdreg reg => Sys2Proof.Machine.execRdreg reg s
  | .reinit fs => Sys2Proof.Machine.execReinit fs s
  | .frame samples => Sys2Proof.Machine.execFrame samples s

end Sys2Proof.Machine
end

