-- ==== Sys2Proof/Machine/Ports.lean ====
section
/-! DEFINITION. The block's output pins and what the host may do between steps (20_memory.md R60, R61,
R74). `clk` is the step itself. -/

namespace Sys2Proof.Machine

/-- `irq_fault`: a level copy of STATUS.FAULT at every cycle (60_exceptions.md R220, 20_memory.md R60). A
reset edge clears it with FAULT, so it is 0 in every cycle from the first edge with `rst_n = 0` on
(70_reset_and_hazards.md R230, R231, DEDUCED, log 12). -/
def State.irqFault (s : State) : Bool := s.fault

/-- `rsp_valid`: a response word is offered; 0 while `rst_n` is 0 (20_memory.md R60,
70_reset_and_hazards.md R230). -/
def State.rspValid (s : State) : Bool := s.rstN && !s.rsp.isEmpty

/-- `rsp_data`: the oldest response word not yet accepted; nothing is offered when there is none
(20_memory.md R61). -/
def State.rspData (s : State) : Option Word := s.rsp.head?

/-- A response word moves: `rsp_valid = 1` and `rsp_ready = 1` (20_memory.md R61). -/
def State.rspTransfer (s : State) : Bool := s.rspValid && s.rspReady

/-- `cmd_ready`: low while `rst_n` is 0 and while a response the block must emit cannot be accepted
(20_memory.md R61, 70_reset_and_hazards.md R230). The block may hold it low longer (DEDUCED, log 6). -/
def State.cmdReady (s : State) : Bool := s.rstN && (s.rspReady || s.rsp.isEmpty)

/-- The host offers more words on the command stream (20_memory.md R74). -/
def State.offer (s : State) (ws : List Word) : State := { s with cmdIn := s.cmdIn ++ ws }

/-- The host drives `rst_n` (20_memory.md R74). -/
def State.driveReset (s : State) (level : Bool) : State := { s with rstN := level }

/-- The host drives `rsp_ready` (20_memory.md R74). -/
def State.driveReady (s : State) (level : Bool) : State := { s with rspReady := level }

/-- The oldest response word and no more moves to the host, if the handshake moves one: an edge between two
steps, so that a reset can fall in the middle of a FRAME's responses (20_memory.md R61,
70_reset_and_hazards.md R231, DEDUCED, log 18). -/
def State.acceptOne (s : State) : State :=
  if s.rspTransfer then
    { s with rsp := s.rsp.drop 1, received := s.received ++ s.rsp.take 1 }
  else s

/-- Every response word emitted that a reset has not discarded, in the order emitted. -/
def State.responses (s : State) : List Word := s.received ++ s.rsp

end Sys2Proof.Machine
end

