-- ==== Sys2Proof/Machine/Fetch.lean ====
section
/-! DEFINITION. What stands before a command's execution: reset, the response handshake, taking the
words of a command and decoding them (20_memory.md R61, R75; 60_exceptions.md R212; 70 R230). -/

namespace Sys2Proof.Machine

/-- What a step finds to do. -/
inductive Event where
  /-- The step ends in this state: a reset edge, a wait, or a word that is no command. -/
  | settled (t : State)
  /-- A whole command was taken: it runs in this state. -/
  | run (i : Instr) (t : State)
  deriving DecidableEq, Repr

/-- The response words move to the host, one after the other, if the handshake moves them
(20_memory.md R61). -/
def State.acceptResponses (s : State) : State :=
  if s.rspTransfer then { s with rsp := [], received := s.received ++ s.rsp } else s

/-- The words of the command stream from the next command word on: those taken already for a command
in progress, then those the host offers. -/
def State.stream (s : State) : List Word := s.taken ++ s.cmdIn

/-- The state after the words of a whole command were taken: `rest` is what the host still offers, and
`cp` has advanced by the command's `1 + L(cmd)` words (10_state.md R21, 60_exceptions.md R212). -/
def State.tookCommand (s : State) (words : Nat) (rest : List Word) : State :=
  { s with taken := [], cmdIn := rest, cp := s.cp + words }

/-- Takes the next command, or the part of it that has arrived: a command whose payload is not
complete waits with the words it has (20_memory.md R66, R75, 10_state.md R50). -/
def State.takeCommand (s : State) : Event :=
  match s.stream with
  | [] => .settled s
  | cmd :: rest =>
    if rest.length < payloadLen cmd then .settled { s with taken := cmd :: rest, cmdIn := [] }
    else
      match decode (cmd :: rest) with
      | .ok i rest' => .run i (s.tookCommand (1 + payloadLen cmd) rest')
      | .reject why =>
        .settled ((s.tookCommand (1 + payloadLen cmd) (rest.drop (payloadLen cmd))).rejectWord why cmd
          (rest.take (payloadLen cmd)))

/-- What the next step does: a reset edge while `rst_n` is low (70_reset_and_hazards.md R230);
otherwise the waiting responses go to the host, and only when none is left is a command taken
(20_memory.md R61, 70_reset_and_hazards.md R246). -/
def State.nextEvent (s : State) : Event :=
  if s.rstN then
    let t := s.acceptResponses
    if t.rsp = [] then t.takeCommand else .settled t
  else .settled s.resetEdge

end Sys2Proof.Machine
end

