-- ==== Sys2Proof/Machine/Step.lean ====
section
/-! DEFINITION. One step of the machine (60_exceptions.md R212): "The block's one step takes a whole
command and executes it" (DEDUCED, log 1). -/

namespace Sys2Proof.Machine

/-- One step: reset, wait, or a whole command. -/
def step (s : State) : Host.Outcome State Fault Refusal :=
  match s.nextEvent with
  | .settled t => .next t
  | .run i t => exec i t

/-- The state in which the very next step runs the instruction whose opcode-table bits are `w`: its words
come first on the command stream, no command is in progress, `rst_n` is high and the host is ready for
responses (DESIGN CHOICE, log 3). -/
def State.withFetchWord (s : State) (nbits w : Nat) : State :=
  { s with taken := [], cmdIn := tableWords nbits w ++ s.cmdIn, rstN := true, rspReady := true }

end Sys2Proof.Machine
end

