-- ==== Sys2Proof/Machine/Assembler.lean ====
section
/-! DEFINITION. The assembly language of the command stream (30_encoding.md R89) and its
pseudo-instructions (R90). It is text for the host's side and no part of a step. Where R89 leaves the
form of a line or of a number open, log 16 says what is taken (DESIGN CHOICE). -/

namespace Sys2Proof.Machine

/-! ### Characters -/

/-- White space inside a line: R89 names none (DESIGN CHOICE, log 16). -/
def isBlank (c : Char) : Bool := c = ' ' || c = '\t' || c = '\r'

/-- A text without the white space at its two ends. -/
def trimBlank (cs : List Char) : List Char :=
  ((cs.dropWhile isBlank).reverse.dropWhile isBlank).reverse

/-- The pieces of a text between the separators `sep`. -/
def piecesAt (sep : Char) (cs : List Char) : List (List Char) :=
  cs.foldr
    (fun c acc =>
      if c = sep then [] :: acc
      else match acc with
        | [] => [[c]]
        | piece :: more => (c :: piece) :: more)
    [[]]

/-! ### Literals (R89) -/

/-- The value of a digit, letters in lower case. -/
def digitValue (c : Char) : Option Nat :=
  if '0' ≤ c ∧ c ≤ '9' then some (c.toNat - 48)
  else if 'a' ≤ c ∧ c ≤ 'f' then some (c.toNat - 87)
  else none

/-- Digits of a base after the value `acc`. -/
def readDigits (base : Nat) : List Char → Nat → Option Nat
  | [], acc => some acc
  | c :: cs, acc =>
    match digitValue c with
    | some d => if d < base then readDigits base cs (acc * base + d) else none
    | none => none

/-- One or more digits of a base, leading zeros allowed (DESIGN CHOICE, log 16). -/
def readNat (base : Nat) (cs : List Char) : Option Nat :=
  if cs = [] then none else readDigits base cs 0

/-- A decimal or `0x` hexadecimal number without a sign. -/
def readUnsigned (cs : List Char) : Option Nat :=
  match cs with
  | '0' :: 'x' :: ds => readNat 16 ds
  | ds => readNat 10 ds

/-- A decimal number without a sign, as a numerator over a power of ten. R89 gives no form for it: digits
alone, or digits on both sides of one point; `.5`, `1.` and an exponent are refused (DESIGN CHOICE,
log 16). -/
def readFraction (cs : List Char) : Option (Nat × Nat) :=
  match piecesAt '.' cs with
  | [whole] => (readNat 10 whole).map fun n => (n, 1)
  | [whole, part] =>
    if whole = [] ∨ part = [] then none
    else (readNat 10 (whole ++ part)).map fun n => (n, 10 ^ part.length)
  | _ => none

/-- A decimal number `r` times `2^bits`, rounded to nearest with ties away from zero (R89). The one sign
taken is a `-` right before the digits; a `+` is refused (DESIGN CHOICE, log 16). -/
def readFixed (bits : Nat) (cs : List Char) : Option Int :=
  match trimBlank cs with
  | '-' :: ds => (readFraction ds).map fun f => rdiv (-(f.1 * 2 ^ bits : Nat)) f.2
  | ds => (readFraction ds).map fun f => rdiv (f.1 * 2 ^ bits : Nat) f.2

/-- The text before a closing parenthesis that ends it. -/
def beforeClose (cs : List Char) : Option (List Char) :=
  match cs.reverse with
  | ')' :: inside => some inside.reverse
  | _ => none

/-- A value that a 32-bit word can hold, unsigned or as two's complement; any other is refused (DESIGN
CHOICE, log 16). -/
def wordIfFits (v : Int) : Option Word :=
  if -2 ^ 31 ≤ v ∧ v < 2 ^ 32 then some (u32 v) else none

/-- A 32-bit literal: decimal, `0x` hexadecimal, negative decimal, `q24(r)` or `q16(r)`. -/
def readLiteral (cs : List Char) : Option Word :=
  match cs with
  | 'q' :: '2' :: '4' :: '(' :: rest => ((beforeClose rest).bind (readFixed 24)).bind wordIfFits
  | 'q' :: '1' :: '6' :: '(' :: rest => ((beforeClose rest).bind (readFixed 16)).bind wordIfFits
  | '-' :: ds => ((readNat 10 ds).map fun n => -(n : Int)).bind wordIfFits
  | ds => ((readUnsigned ds).map fun n => (n : Int)).bind wordIfFits

/-! ### Register names (10_state.md R27) -/

/-- The registers that are not one of ten. -/
def scalarRegs : List (String × Reg) :=
  [("id", .id), ("version", .version), ("status", .status), ("ctrl", .ctrl),
   ("active_rate", .activeRate), ("ramp_len", .rampLen), ("frame_count", .frameCount),
   ("fault_cmd", .faultCmd), ("fault_arg", .faultArg), ("mix_target", .mixTarget),
   ("mix_current", .mixCurrent), ("mix_left", .mixLeft)]

/-- The registers there are ten of. -/
def bankRegs : List (String × (Fin 10 → Reg)) :=
  [("gain_target", .gainTarget), ("gain_current", .gainCurrent), ("gain_left", .gainLeft),
   ("phase_inc", .phaseInc), ("phase", .phase), ("freq", .freq)]

/-- An oscillator index 0 to 9, in brackets, appended, or the I of `setgain`: R89 and R90 give it no base,
and it is decimal only (DESIGN CHOICE, log 16). -/
def readOsc (cs : List Char) : Option (Fin 10) :=
  (readNat 10 cs).bind fun n => if h : n < 10 then some ⟨n, h⟩ else none

/-- An oscillator index in brackets or appended. -/
def readOscSuffix (cs : List Char) : Option (Fin 10) :=
  match cs with
  | '[' :: rest =>
    match rest.reverse with
    | ']' :: inside => readOsc (trimBlank inside.reverse)
    | _ => none
  | ds => readOsc ds

/-- A register operand: a name of R27, or a number 0 to 255 (a reserved index assembles). -/
def readReg (cs : List Char) : Option (BitVec 8) :=
  match scalarRegs.find? fun e => e.1.toList = cs with
  | some e => some e.2.index
  | none =>
    match bankRegs.findSome? fun e =>
        if e.1.toList.isPrefixOf cs then
          (readOscSuffix (cs.drop e.1.toList.length)).map fun i => (e.2 i).index
        else none with
    | some r => some r
    | none => (readUnsigned cs).bind fun n => if n < 256 then some (BitVec.ofNat 8 n) else none

/-! ### Pseudo-instructions (R90) -/

/-- `setmix V`. -/
def setmix (v : Word) : Instr := .wrreg Reg.mixTarget.index v

/-- `setgain I, V`. -/
def setgain (i : Fin 10) (v : Word) : Instr := .wrreg (Reg.gainTarget i).index v

/-- `sclink B`. -/
def sclink (b : Bool) : Instr := .wrreg Reg.ctrl.index (BitVec.ofNat 32 b.toNat)

/-- `status`. -/
def status : Instr := .rdreg Reg.status.index

/-- `silence C`, for a channel count of 1 to 8. -/
def silence (channels : Nat) : Instr := .frame (List.replicate channels 0)

/-! ### Lines -/

/-- A number not above `most`, the B of `sclink` or the C of `silence`: R90 gives it no base, and it is decimal
or `0x` hexadecimal (DESIGN CHOICE, log 16). -/
def readUpTo (most : Nat) (cs : List Char) : Option Nat :=
  (readUnsigned cs).bind fun n => if n ≤ most then some n else none

/-- The command of a mnemonic with its operands, all in lower case (R89, R90). -/
def readCommand (mnemonic : String) (ops : List (List Char)) : Option Instr :=
  match mnemonic, ops with
  | "nop", [] => some .nop
  | "wrreg", [r, v] => (readReg r).bind fun reg => (readLiteral v).map (.wrreg reg)
  | "rdreg", [r] => (readReg r).map .rdreg
  | "reinit", [v] => (readLiteral v).map .reinit
  | "frame", xs =>
    (xs.mapM readLiteral).bind fun ws =>
      if (Instr.frame ws).wellFormed then some (.frame ws) else none
  | "setmix", [v] => (readLiteral v).map setmix
  | "setgain", [i, v] => (readOsc i).bind fun k => (readLiteral v).map (setgain k)
  | "sclink", [b] => (readUpTo 1 b).map fun n => sclink (n == 1)
  | "status", [] => some status
  | "silence", [c] =>
    (readUpTo 8 c).bind fun n => if (silence n).wellFormed then some (silence n) else none
  | _, _ => none

/-- The commands of one line: none for a line that is blank or only a comment, one otherwise. The
result is `none` where the line is not of the language (R89). -/
def assembleLine (line : List Char) : Option (List Instr) :=
  let text := trimBlank ((line.takeWhile (· ≠ ';')).map Char.toLower)
  if text = [] then some []
  else
    let mnemonic := text.takeWhile fun c => !isBlank c
    let operands := trimBlank (text.drop mnemonic.length)
    let ops := if operands = [] then [] else (piecesAt ',' operands).map trimBlank
    (readCommand (String.ofList mnemonic) ops).map fun i => [i]

/-- The commands of a program, one line after the other. -/
def assembleLines (lines : List (List Char)) : Option (List Instr) :=
  (lines.mapM assembleLine).map List.flatten

/-- The words of a program text on the command stream (R89). -/
def assemble (source : String) : Option (List Word) :=
  (assembleLines (piecesAt '\n' source.toList)).map fun is => is.flatMap encode

end Sys2Proof.Machine
end

