-- ==== Sys2Proof/Safety.lean ====
section
/-! DEFINITION. What every reachable state keeps (10_state.md R52), in the form that a step keeps from any
state that has it. -/

namespace Sys2Proof.Machine

/-- The block takes words of the command stream in this state: `rst_n` is high and no response holds the
stream (20_memory.md R61, 70_reset_and_hazards.md R230, R246). -/
abbrev State.Accepting (s : State) : Prop := s.rstN = true ∧ (s.rspReady = true ∨ s.rsp = [])

/-- A smoother keeps its ranges (10_state.md R26, R48), rests on its target when no ramp is in progress
(R52 item 3), and while one is, its remaining steps head for the target without passing it
(R52 item 4, 41_parameter_smoothing.md R133), `n` being the ramp length. -/
abbrev Smoother.Ok (n : Nat) (s : Smoother) : Prop :=
  s.target ≤ 65536 ∧ 0 ≤ s.acc ∧ s.acc ≤ 2 ^ 32 ∧ -2 ^ 32 ≤ s.step ∧ s.step ≤ 2 ^ 32 ∧
    s.left ≤ n ∧ (s.left = 0 → s.acc = s.target * 2 ^ 16) ∧
    (0 < s.left →
      (0 ≤ s.step ∧ s.acc + s.left * s.step ≤ s.target * 2 ^ 16) ∨
      (s.step ≤ 0 ∧ s.target * 2 ^ 16 ≤ s.acc + s.left * s.step))

/-- The values that depend on the sample rate: none before a REINIT (10_state.md R52 item 2), those of a
legal rate after it (40_oscillator_bank.md R106, R110, R111). -/
abbrev State.RateOk (s : State) : Prop :=
  (s.init = false →
    s.activeRate = 0 ∧ s.rampLen = 0 ∧ s.frameCount = 0 ∧
      ∀ i : Fin 10, s.inc.get i = 0 ∧ s.phase.get i = 0) ∧
  (s.init = true →
    8000 ≤ s.activeRate.toNat ∧ s.activeRate.toNat ≤ 384000 ∧
      (s.rampLen : Int) = rdiv s.activeRate.toNat 100 ∧
      ∀ i : Fin 10, s.inc.get i = phaseIncrement (Config.freq.get i) s.activeRate.toNat)

/-- The fault record is empty exactly outside the fault state (10_state.md R52 item 1, R35, R36). -/
abbrev State.FaultOk (s : State) : Prop :=
  (s.cause = .none ↔ s.fault = false) ∧ (s.fault = false → s.faultCmd = 0 ∧ s.faultArg = 0)

/-- The words taken of a command in progress are fewer than the command has (20_memory.md R75). -/
def wordsIncomplete (ws : List Word) : Bool :=
  match ws with
  | [] => true
  | cmd :: rest => decide (rest.length < payloadLen cmd)

/-- The invariant of the machine. -/
abbrev State.Inv (s : State) : Prop :=
  s.FaultOk ∧ s.RateOk ∧ s.mix.Ok s.rampLen ∧ (∀ i : Fin 10, (s.gain.get i).Ok s.rampLen) ∧
    wordsIncomplete s.taken = true

end Sys2Proof.Machine
end

