-- ==== Sys2Proof/Certificates/Slice0/Obligations.lean ====
section
/-! DEFINITION. What is claimed of the block, in the order of the spec's files. No statement rests on a
reset value the model chose; where one names a field of the host's side (DESIGN CHOICE, log 4), it holds for
every value of it. Where one rests on a point the model inferred, its docstring names the log entry. -/

open Sys2Proof Sys2Proof.Machine

/-! ### Notation (00_scope.md) -/

/-- 00_scope.md R8: `rdiv` is the nearest integer to the quotient with a tie going away from zero, `tdiv` the
quotient truncated toward zero, in the rationals, with the rule's examples. -/
def Obligations.RoundingDivisions : Prop :=
  (∀ (n : Int) (d : Nat), 0 < d →
    rdiv n d = n.sign * ⌊(2 * |(n : ℚ)| + d) / (2 * d)⌋ ∧
    tdiv n d = n.sign * ⌊|(n : ℚ)| / d⌋ ∧
    |(rdiv n d : ℚ) - n / d| ≤ 1 / 2 ∧
    (∀ k : Int, 0 ≤ k → (2 * n = (2 * k + 1) * d → rdiv n d = k + 1) ∧
      (2 * n = -((2 * k + 1) * d) → rdiv n d = -(k + 1))) ∧
    |(tdiv n d : ℚ)| ≤ |(n : ℚ) / d| ∧ |(tdiv n d : ℚ) - n / d| < 1) ∧
  rdiv 5 2 = 3 ∧ rdiv (-5) 2 = -3 ∧ rdiv 7 3 = 2 ∧ rdiv (-7) 3 = -2 ∧ tdiv (-7) 2 = -3 ∧ tdiv 7 2 = 3

/-! ### State and registers (10_state.md) -/

/-- 10_state.md R27, R46: an index names a register exactly when it is that register's index, and the
reserved indices are the ranges of R46. -/
def Obligations.RegisterMapNamesEveryIndex : Prop :=
  (∀ (index : BitVec 8) (r : Reg), regAt index = some r ↔ r.index = index) ∧
    ∀ index : BitVec 8, regAt index = none ↔
      (0x0C ≤ index.toNat ∧ index.toNat ≤ 0x0F) ∨ (0x1A ≤ index.toNat ∧ index.toNat ≤ 0x1F) ∨
      (0x2A ≤ index.toNat ∧ index.toNat ≤ 0x2F) ∨ (0x3A ≤ index.toNat ∧ index.toNat ≤ 0x3F) ∨
      (0x4A ≤ index.toNat ∧ index.toNat ≤ 0x4F) ∨ (0x5A ≤ index.toNat ∧ index.toNat ≤ 0x5F) ∨
      0x6A ≤ index.toNat

/-- 10_state.md R30, 60_exceptions.md R201: the fields of STATUS, bit by bit, in every state, with the number
of each cause code. -/
def Obligations.StatusBitsHoldTheFlags : Prop :=
  ∀ s : State,
    s.status.getLsbD 0 = s.init ∧ s.status.getLsbD 1 = s.fault ∧
    (s.status.getLsbD 2 = true ↔ 0 < s.mix.left ∨ ∃ i : Fin 10, 0 < (s.gain.get i).left) ∧
    (s.status.extractLsb' 8 4).toNat =
      (match s.cause with
        | .none => 0
        | .illegalOpcode => 1
        | .reservedField => 2
        | .badRegRead => 3
        | .badRegWrite => 4
        | .badRate => 5
        | .notInit => 6) ∧
    s.status.extractLsb' 3 5 = 0 ∧ s.status.extractLsb' 12 20 = 0

/-- 43_control_commands.md R186: under the invariant the unused high bits of the registers read 0. -/
def Obligations.UnusedRegisterBitsReadZero : Prop :=
  ∀ s : State, s.Inv →
    (s.value .ctrl).extractLsb' 1 31 = 0 ∧
    (s.value .mixTarget).extractLsb' 17 15 = 0 ∧ (s.value .mixCurrent).extractLsb' 17 15 = 0 ∧
    (s.value .mixLeft).extractLsb' 12 20 = 0 ∧ (s.value .rampLen).extractLsb' 12 20 = 0 ∧
    ∀ i : Fin 10,
      (s.value (.gainTarget i)).extractLsb' 17 15 = 0 ∧
      (s.value (.gainCurrent i)).extractLsb' 17 15 = 0 ∧
      (s.value (.gainLeft i)).extractLsb' 12 20 = 0

/-- 10_state.md R52, from every state that has it: the fault record, the rate's values, the smoothers'
ranges and headings, and the command in progress (DEDUCED, log 2) stay consistent through every step. -/
def Obligations.StepKeepsInv : Prop :=
  ∀ s t : State, s.Inv → step s = .next t → t.Inv

/-- 10_state.md R52: the reset state has the invariant. -/
def Obligations.ResetHasInv : Prop := State.reset.Inv

/-- 10_state.md R32 to R34, R43, R44, R47: which commands write which state, over every command and
every state. The host's side, the words taken and `cp` are no command's to write. -/
def Obligations.OnlyNamedCommandsWriteEachRegister : Prop :=
  ∀ (i : Instr) (s t : State), exec i s = .next t →
    ((t.activeRate ≠ s.activeRate ∨ t.rampLen ≠ s.rampLen ∨ t.inc ≠ s.inc ∨ t.init ≠ s.init) →
      ∃ fs, i = .reinit fs) ∧
    ((t.phase ≠ s.phase ∨ t.frameCount ≠ s.frameCount) →
      (∃ fs, i = .reinit fs) ∨ ∃ xs, i = .frame xs) ∧
    (t.sclink ≠ s.sclink → ∃ data, i = .wrreg 0x03 data) ∧
    (t.mix.target ≠ s.mix.target → ∃ data, i = .wrreg 0x09 data) ∧
    (∀ k : Fin 10, (t.gain.get k).target ≠ (s.gain.get k).target →
      ∃ data, i = .wrreg (0x10 + BitVec.ofNat 8 k.val) data) ∧
    (t.rsp ≠ s.rsp → (∃ reg, i = .rdreg reg) ∨ ∃ xs, i = .frame xs) ∧
    (t.cp = s.cp ∧ t.taken = s.taken ∧ t.cmdIn = s.cmdIn ∧ t.rstN = s.rstN ∧
      t.rspReady = s.rspReady ∧ t.received = s.received)

/-! ### Streams and ordering (20_memory.md) -/

/-- 20_memory.md R64: the words of a byte-serial transport are little-endian, and a command's bytes
decode to the command. -/
def Obligations.ByteSerialTransportIsLittleEndian : Prop :=
  (∀ ws : List Word, wordsOfBytes (ws.flatMap bytesOfWord) = ws) ∧
  (∀ (w : Word) (k : Fin 4) (b : Byte), (bytesOfWord w)[k.val]? = some b →
    ∀ j : Fin 8, b.getLsbD j.val = w.getLsbD (8 * k.val + j.val)) ∧
  ∀ i : Instr, i.wellFormed = true → decodeBytes ((encode i).flatMap bytesOfWord) = .ok i []

/-- 60_exceptions.md R220, 20_memory.md R60, R61, 70_reset_and_hazards.md R230: the output pins. In every
state `irq_fault` equals STATUS.FAULT. With `rst_n` high a response is offered exactly when one waits, the
oldest first, and `cmd_ready` is low while one that waits cannot be accepted. With `rst_n` low nothing is
offered or accepted, and `irq_fault` is low from the edge on: that R230's "while" begins at the edge for this
pin is DEDUCED (log 12). -/
def Obligations.OutputPinsFollowTheState : Prop :=
  ∀ s : State,
    s.irqFault = s.fault ∧
    (s.rstN = true →
      (s.rspValid = true ↔ s.rsp ≠ []) ∧
      (∀ w rest, s.rsp = w :: rest → s.rspData = some w) ∧
      (s.rspReady = false → s.rsp ≠ [] → s.cmdReady = false)) ∧
    (s.rstN = false →
      s.rspValid = false ∧ s.cmdReady = false ∧ ∀ t, step s = .next t → t.irqFault = false)

/-- 20_memory.md R61: a response word moves only where `rsp_valid` and `rsp_ready` are both 1, at an edge
between steps the oldest one, in a step all that wait (DEDUCED, log 1); no command word moves where
`cmd_ready` is 0. -/
def Obligations.TransfersNeedValidAndReady : Prop :=
  ∀ s : State,
    (∀ w rest, s.rsp = w :: rest → s.rspValid = true → s.rspReady = true →
      s.acceptOne = { s with rsp := rest, received := s.received ++ [w] }) ∧
    (s.rspValid = false ∨ s.rspReady = false → s.acceptOne = s) ∧
    ∀ t, step s = .next t →
      (s.rspValid = false ∨ s.rspReady = false → t.received = s.received) ∧
      (s.rspValid = true → s.rspReady = true → t.received = s.received ++ s.rsp) ∧
      (s.cmdReady = false → t.cmdIn = s.cmdIn)

/-- 20_memory.md R61: response words reach the host in the order emitted; a step loses, changes and
reorders none. -/
def Obligations.ResponsesAreNeverLostOrReordered : Prop :=
  ∀ s t : State, s.rstN = true → step s = .next t →
    (∃ ws, t.responses = s.responses ++ ws) ∧ ∃ ws, t.received = s.received ++ ws

/-- 20_memory.md R63, 10_state.md R21: the command stream is taken in order, word by word, and `cp`
counts the words of the commands taken; that it moves with the whole command is DEDUCED (log 5). -/
def Obligations.CommandStreamIsTakenInOrder : Prop :=
  ∀ s t : State, s.rstN = true → step s = .next t →
    ∃ ws, s.stream = ws ++ t.stream ∧ t.cp = s.cp + ws.length

/-- 20_memory.md R75: a command whose words have not all arrived waits. Nothing changes but that the
words that have arrived are taken and the responses the host is ready for are gone; a wait as a next state
is DEDUCED (log 2). -/
def Obligations.IncompleteCommandWaits : Prop :=
  ∀ s : State, s.Accepting →
    (s.stream = [] → step s = .next s.acceptResponses) ∧
    ∀ (cmd : Word) (rest : List Word), s.stream = cmd :: rest → rest.length < payloadLen cmd →
      step s = .next { s.acceptResponses with taken := cmd :: rest, cmdIn := [] }

/-- 70_reset_and_hazards.md R249, 20_memory.md R75: how the words of a command are spread over time does
not matter. A step that waits and then gets more words does what a step does that had them all; the wait as
a next state is DEDUCED (log 2). -/
def Obligations.WaitingForWordsIsInvisible : Prop :=
  ∀ (s t : State) (ws : List Word), s.Accepting → wordsIncomplete s.stream = true →
    step s = .next t → step (t.offer ws) = step (s.offer ws)

/-- 70_reset_and_hazards.md R249: what a step does to the block, the words it takes and the responses it
emits are fixed by the block's record and the words of the stream. How those words are split between taken
and offered, how many responses went out before and whether the host is ready do not matter; what a step is and
when `cp` moves are DEDUCED (log 1, log 2, log 5). -/
def Obligations.ResultsDependOnTheWordsAlone : Prop :=
  ∀ s u t v : State, s.Accepting → u.Accepting → s.stream = u.stream →
    u = { s with taken := u.taken, cmdIn := u.cmdIn, rsp := u.rsp, rspReady := u.rspReady,
                 received := u.received } →
    step s = .next t → step u = .next v →
    v = { t with taken := v.taken, cmdIn := v.cmdIn, rsp := v.rsp, rspReady := v.rspReady,
                 received := v.received } ∧
    v.stream = t.stream ∧
    ∃ ws, t.responses = s.responses ++ ws ∧ v.responses = u.responses ++ ws

/-- 20_memory.md R61, 70_reset_and_hazards.md R246: while a response waits and the host does not accept
it, nothing changes, the word offered stays the same and no command word is taken (DEDUCED, log 6: the
block holds all of a command's responses). -/
def Obligations.BackPressureStallsTheBlock : Prop :=
  ∀ s : State, s.rstN = true → s.rspReady = false → s.rsp ≠ [] →
    step s = .next s ∧ s.rspValid = true ∧ s.rspData = s.rsp.head? ∧ s.cmdReady = false

/-! ### Encoding (30_encoding.md) -/

/-- 30_encoding.md R80, R82 to R84, R86, R89: decoding the words of a well-formed command gives it back,
with every operand, and leaves the words after it. -/
def Obligations.DecodeOfEncode : Prop :=
  ∀ (i : Instr) (rest : List Word), i.wellFormed = true → decode (encode i ++ rest) = .ok i rest

/-- 30_encoding.md R86: each list of words is at most one command's: what decodes to a command is that
command's encoding followed by the rest. -/
def Obligations.EncodeOfDecode : Prop :=
  ∀ (i : Instr) (ws rest : List Word), decode ws = .ok i rest →
    i.wellFormed = true ∧ ws = encode i ++ rest

/-- 30_encoding.md R82, R86, R87: the match and mask of each command word, the illegal opcodes, and
everything else reserved, for every one of the 2^32 words. -/
def Obligations.OpcodeMapMatchesItsMasks : Prop :=
  ∀ cmd : Word,
    (verdict cmd = .nop ↔ cmd &&& 0xFFFFFFFF = 0x00000000) ∧
    (∀ reg, verdict cmd = .wrreg reg ↔
      cmd &&& 0xFFFFFF00 = 0x10000000 ∧ reg = cmd.extractLsb' 0 8) ∧
    (∀ reg, verdict cmd = .rdreg reg ↔
      cmd &&& 0xFFFFFF00 = 0x20000000 ∧ reg = cmd.extractLsb' 0 8) ∧
    (verdict cmd = .reinit ↔ cmd &&& 0xFFFFFFFF = 0x30000000) ∧
    (∀ c, verdict cmd = .frame c ↔
      cmd &&& 0xFFFFFFF8 = 0x40000000 ∧ c = (cmd.extractLsb' 0 3).toNat + 1) ∧
    (verdict cmd = .illegal ↔ 5 ≤ (cmd.extractLsb' 28 4).toNat)

/-- 30_encoding.md R84: the payload length reads `cmd[31:28]` and `cmd[2:0]` only. -/
def Obligations.PayloadLengthReadsTwoFields : Prop :=
  (∀ cmd : Word,
    payloadLen cmd =
      if cmd.extractLsb' 28 4 = 1 ∨ cmd.extractLsb' 28 4 = 3 then 1
      else if cmd.extractLsb' 28 4 = 4 then (cmd.extractLsb' 0 3).toNat + 1
      else 0) ∧
  ∀ c d : Word, c.extractLsb' 28 4 = d.extractLsb' 28 4 → c.extractLsb' 0 3 = d.extractLsb' 0 3 →
    payloadLen c = payloadLen d

/-- 30_encoding.md R91: the worked encodings assemble to their words, and the words decode. -/
def Obligations.WorkedEncodingsAssemble : Prop :=
  (assemble "nop" = some [0x00000000] ∧
    decode [0x00000000] = .ok .nop []) ∧
  (assemble "setmix q16(1)" = some [0x10000009, 0x00010000] ∧
    decode [0x10000009, 0x00010000] = .ok (.wrreg 0x09 0x00010000) []) ∧
  (assemble "setgain 4, q16(1)" = some [0x10000014, 0x00010000] ∧
    decode [0x10000014, 0x00010000] = .ok (.wrreg 0x14 0x00010000) []) ∧
  (assemble "rdreg STATUS" = some [0x20000002] ∧
    decode [0x20000002] = .ok (.rdreg 0x02) []) ∧
  (assemble "rdreg PHASE[4]" = some [0x20000044] ∧
    decode [0x20000044] = .ok (.rdreg 0x44) []) ∧
  (assemble "reinit 44100" = some [0x30000000, 0x0000AC44] ∧
    decode [0x30000000, 0x0000AC44] = .ok (.reinit 44100) []) ∧
  (assemble "frame q24(0.2), q24(0.2)" = some [0x40000001, 0x00333333, 0x00333333] ∧
    decode [0x40000001, 0x00333333, 0x00333333] = .ok (.frame [0x00333333, 0x00333333]) []) ∧
  (assemble "sclink 1" = some [0x10000003, 0x00000001] ∧
    decode [0x10000003, 0x00000001] = .ok (.wrreg 0x03 0x00000001) [])

/-- 30_encoding.md R90: each pseudo-instruction is one command, with these words. -/
def Obligations.PseudoInstructionsAreOneCommand : Prop :=
  (∀ v, encode (setmix v) = [0x10000009, v]) ∧
  (∀ (k : Fin 10) v, encode (setgain k v) = [0x10000010 + BitVec.ofNat 32 k.val, v]) ∧
  (∀ b : Bool, encode (sclink b) = [0x10000003, if b then 1 else 0]) ∧
  encode status = [0x20000002] ∧
  ∀ c, 1 ≤ c → c ≤ 8 →
    encode (silence c) = (0x40000000 + BitVec.ofNat 32 (c - 1)) :: List.replicate c 0

/-- 30_encoding.md R85: how many response words a command emits, in every state. -/
def Obligations.ResponseCountOfEachCommand : Prop :=
  ∀ (i : Instr) (s t : State), i.wellFormed = true → exec i s = .next t →
    (s.fault = false → t.fault = false →
      t.rsp.length = s.rsp.length + match i with
        | .nop => 0
        | .wrreg _ _ => 0
        | .rdreg _ => 1
        | .reinit _ => 0
        | .frame xs => xs.length) ∧
    (s.fault = false → t.fault = true → t.rsp = s.rsp) ∧
    (s.fault = true → t.rsp.length = s.rsp.length + match i with
        | .rdreg reg => (if (regAt reg).isSome then 1 else 0)
        | .nop => 0
        | .wrreg _ _ => 0
        | .reinit _ => 0
        | .frame _ => 0)

/-! ### The oscillator bank (40_oscillator_bank.md) -/

/-- 40_oscillator_bank.md R102: the sine unit is the correctly rounded sine, a tie going away from zero;
it is within half a unit (SIN_TOL = 0), which determines it, it is a tone value, and no tie can occur. -/
def Obligations.SineUnitIsCorrectlyRounded : Prop :=
  ∀ p : Word,
    let v : ℝ := 2 ^ 24 * Real.sin (2 * Real.pi * p.toNat / 2 ^ 32)
    sinq p = (if 0 ≤ v then ⌊|v| + 1 / 2⌋ else -⌊|v| + 1 / 2⌋) ∧
    |(sinq p : ℝ) - v| ≤ 1 / 2 ∧ (∀ n : ℤ, |(n : ℝ) - v| ≤ 1 / 2 → n = sinq p) ∧
    -2 ^ 24 ≤ sinq p ∧ sinq p ≤ 2 ^ 24 ∧
    ∀ n : ℤ, v ≠ n + 1 / 2

/-- 40_oscillator_bank.md R103: the five properties of the sine unit. -/
def Obligations.SineUnitProperties : Prop :=
  (sinq 0 = 0 ∧ sinq (BitVec.ofNat 32 (2 ^ 30)) = 2 ^ 24 ∧ sinq (BitVec.ofNat 32 (2 ^ 31)) = 0 ∧
    sinq (BitVec.ofNat 32 (3 * 2 ^ 30)) = -2 ^ 24) ∧
  (∀ p : Nat, 0 < p → p < 2 ^ 32 →
    sinq (BitVec.ofNat 32 (2 ^ 32 - p)) = -sinq (BitVec.ofNat 32 p)) ∧
  (∀ p : Nat, p ≤ 2 ^ 31 → sinq (BitVec.ofNat 32 (2 ^ 31 - p)) = sinq (BitVec.ofNat 32 p)) ∧
  (∀ p : Word, -2 ^ 24 ≤ sinq p ∧ sinq p ≤ 2 ^ 24) ∧
  (∀ p : Nat, p ≤ 20 → sinq (BitVec.ofNat 32 p) = 0) ∧ sinq 21 = 1

/-- 40_oscillator_bank.md R105: the modular addition of an advance subtracts one whole turn when the sum
reaches it and nothing otherwise. -/
def Obligations.PhaseWrapSubtractsOneTurn : Prop :=
  ∀ (phase inc : Ten Word) (i : Fin 10),
    (phase.get i).toNat + (inc.get i).toNat < 2 ^ 33 ∧
    ((advancePhases phase inc).get i).toNat =
      if 2 ^ 32 ≤ (phase.get i).toNat + (inc.get i).toNat then
        (phase.get i).toNat + (inc.get i).toNat - 2 ^ 32
      else (phase.get i).toNat + (inc.get i).toNat

/-- 40_oscillator_bank.md R106: after a REINIT at a legal rate every increment is the rounded quotient,
and lies in the stated range. -/
def Obligations.IncrementsAreNearestAndInRange : Prop :=
  ∀ (s : State) (fs : Word), s.fault = false → 8000 ≤ fs.toNat → fs.toNat ≤ 384000 →
    ∃ t, exec (.reinit fs) s = .next t ∧ ∀ i : Fin 10,
      ((t.inc.get i).toNat : Int) = rdiv (Config.freq.get i * 2 ^ 32) fs.toNat ∧
      1946157 ≤ (t.inc.get i).toNat ∧ (t.inc.get i).toNat ≤ 517006688

/-- 40_oscillator_bank.md R107: after a REINIT at a legal rate the realized frequency differs from FREQ[i]
by at most `fs / 2^33` Hz, below 4.5e-5 Hz; after k advances from phase 0 the phase is k increments; and
after one period, `n = rdiv(fs, FREQ[i])` advances, those increments make up one turn to within the stated
distance. -/
def Obligations.FrequencyRealizedIsClose : Prop :=
  (∀ (s : State) (fs : Word), s.fault = false → 8000 ≤ fs.toNat → fs.toNat ≤ 384000 →
    ∃ t, exec (.reinit fs) s = .next t ∧ ∀ i : Fin 10,
      let inc : ℚ := (t.inc.get i).toNat
      let F : ℚ := Config.freq.get i
      let n : ℚ := rdiv fs.toNat (Config.freq.get i)
      |inc * fs.toNat / 2 ^ 32 - F| ≤ (fs.toNat : ℚ) / 2 ^ 33 ∧
      (fs.toNat : ℚ) / 2 ^ 33 < 45 / 10 ^ 6 ∧
      |n * inc - 2 ^ 32| ≤ |n * F - fs.toNat| * 2 ^ 32 / fs.toNat + n / 2) ∧
  ∀ (inc : Ten Word) (k : Nat) (i : Fin 10),
    ((fun phase => advancePhases phase inc)^[k] (Ten.replicate 0)).get i =
      BitVec.ofNat 32 (k * (inc.get i).toNat)

/-- 40_oscillator_bank.md R110, R111: everything REINIT does, in every state and at every rate; what is
not named is unchanged. -/
def Obligations.ReinitEffects : Prop :=
  ∀ (s : State) (fs : Word),
    (s.fault = false → 8000 ≤ fs.toNat → fs.toNat ≤ 384000 →
      exec (.reinit fs) s = .next
        { s with
          activeRate := fs
          rampLen := (rdiv fs.toNat 100).toNat
          inc := Ten.ofFn fun i => u32 (rdiv (Config.freq.get i * 2 ^ 32) fs.toNat)
          phase := ⟨0, 0, 0, 0, 0, 0, 0, 0, 0, 0⟩
          mix := ⟨s.mix.target, s.mix.target * 65536, 0, 0⟩
          gain := Ten.ofFn fun i => ⟨(s.gain.get i).target, (s.gain.get i).target * 65536, 0, 0⟩
          frameCount := 0
          init := true }) ∧
    (s.fault = false → fs.toNat < 8000 ∨ 384000 < fs.toNat →
      exec (.reinit fs) s = .next
        { s with fault := true, cause := .badRate, faultCmd := 0x30000000, faultArg := fs })

/-- 41_parameter_smoothing.md R131, 10_state.md R33: the ramp length after a REINIT at a legal rate, the
nearest integer to a hundredth of the rate, a tie going up. -/
def Obligations.RampLengthIsTenMilliseconds : Prop :=
  ∀ (s : State) (fs : Word), s.fault = false → 8000 ≤ fs.toNat → fs.toNat ≤ 384000 →
    ∃ t, exec (.reinit fs) s = .next t ∧ (t.rampLen : Int) = rdiv fs.toNat 100 ∧
      100 * t.rampLen ≤ fs.toNat + 50 ∧ fs.toNat + 50 < 100 * t.rampLen + 100 ∧
      80 ≤ t.rampLen ∧ t.rampLen ≤ 3840

/-! ### Parameter smoothing (41_parameter_smoothing.md) -/

/-- 41_parameter_smoothing.md R132: a WRREG of MIX_TARGET or GAIN_TARGET[i] runs the target write on that
register's smoother: the clamp, the case of the target held, the case before any REINIT and the ramp of
RAMP_LEN frames. What is not named is unchanged. -/
def Obligations.TargetWriteLaw : Prop :=
  ∀ (s : State) (data : Word), s.fault = false →
    let T : Nat := min data.toNat 65536
    ((T = s.mix.target → exec (.wrreg 0x09 data) s = .next s) ∧
      (T ≠ s.mix.target → s.rampLen = 0 →
        exec (.wrreg 0x09 data) s = .next { s with mix := ⟨T, T * 2 ^ 16, 0, 0⟩ }) ∧
      (T ≠ s.mix.target → 0 < s.rampLen →
        exec (.wrreg 0x09 data) s = .next
          { s with mix := ⟨T, s.mix.acc, tdiv (T * 2 ^ 16 - s.mix.acc) s.rampLen, s.rampLen⟩ })) ∧
    ∀ i : Fin 10,
      let g := s.gain.get i
      let reg : BitVec 8 := 0x10 + BitVec.ofNat 8 i.val
      (T = g.target → exec (.wrreg reg data) s = .next s) ∧
      (T ≠ g.target → s.rampLen = 0 →
        exec (.wrreg reg data) s = .next { s with gain := s.gain.set i ⟨T, T * 2 ^ 16, 0, 0⟩ }) ∧
      (T ≠ g.target → 0 < s.rampLen →
        exec (.wrreg reg data) s = .next
          { s with gain := s.gain.set i ⟨T, g.acc, tdiv (T * 2 ^ 16 - g.acc) s.rampLen, s.rampLen⟩ })

/-- 41_parameter_smoothing.md R137: a ramp of `n` advances from accumulator `a0` to target `T`: its line,
its exact end, that it never overshoots, that it is monotone, its step bound, and the identity of a
rewrite. -/
def Obligations.RampProperties : Prop :=
  ∀ (n : Nat) (data : Word) (s : Smoother), 0 < n → n ≤ 3840 →
    let T : Nat := min data.toNat 65536
    let a0 : Int := s.acc
    let D : Int := T * 2 ^ 16 - a0
    let st : Int := tdiv D n
    let after : Nat → Smoother := fun k => Smoother.advance^[k] (s.writeTarget n data)
    (T ≠ s.target →
      (∀ k, 1 ≤ k → k ≤ n - 1 → (after k).acc = a0 + k * st ∧ (after k).left = n - k) ∧
      (∀ k, n ≤ k → (after k).acc = T * 2 ^ 16 ∧ (after k).left = 0) ∧
      (∀ k, min a0 (T * 2 ^ 16) ≤ (after k).acc ∧ (after k).acc ≤ max a0 (T * 2 ^ 16) ∧
        min (a0 / 65536) T ≤ (after k).code ∧ (after k).code ≤ max (a0 / 65536) T) ∧
      (∀ k, |(T : Int) - (after (k + 1)).code| ≤ |(T : Int) - (after k).code|) ∧
      (∀ k, k + 1 < n → (after (k + 1)).acc - (after k).acc = st) ∧
      (after n).acc - (after (n - 1)).acc = st + (D - n * st) ∧
      |D - n * st| < n) ∧
    (T = s.target → s.writeTarget n data = s)

/-- 41_parameter_smoothing.md R130, R134: a FRAME advances the mix smoother and each gain smoother by one
step, and each by its own fields alone. -/
def Obligations.FrameAdvancesEachSmootherOnce : Prop :=
  ∀ (s : State) (xs : List Word), 1 ≤ xs.length → xs.length ≤ 8 → s.fault = false → s.init = true →
    ∃ t, exec (.frame xs) s = .next t ∧
      ∀ a b : Smoother, (a = s.mix ∧ b = t.mix ∨ ∃ i : Fin 10, a = s.gain.get i ∧ b = t.gain.get i) →
        (a.left = 0 → b = a) ∧
        (a.left = 1 → b = ⟨a.target, a.target * 2 ^ 16, a.step, 0⟩) ∧
        (2 ≤ a.left → b = ⟨a.target, a.acc + a.step, a.step, a.left - 1⟩)

/-! ### The mixing engine (42_mixing_engine.md) -/

/-- 42_mixing_engine.md R150 to R159: everything FRAME does once a REINIT has succeeded; what is not named
is unchanged. -/
def Obligations.FrameEffects : Prop :=
  ∀ (s : State) (xs : List Word), 1 ≤ xs.length → xs.length ≤ 8 → s.fault = false → s.init = true →
    let m : Int := s.mix.advance.acc / 65536
    let g : Fin 10 → Int := fun i => (s.gain.get i).advance.acc / 65536
    let c : Fin 10 → Int := fun i =>
      if 1000 * g i > 65536 then rdiv (sinq (s.phase.get i) * g i) 655360 else 0
    let S : Int := ∑ i, c i
    let X : List Int := xs.map BitVec.toInt
    let Y : Int → Int := fun x =>
      let A : Nat := if s.sclink then (X.map Int.natAbs).foldr max 0 else x.natAbs
      let SCN : Int := if 10 * A ≥ 7 * 2 ^ 25 then 3 * 2 ^ 25 else 10 * (2 ^ 25 - A)
      let NUM : Int := x * (655360 - 3 * m) * 2 ^ 25 + S * m * SCN
      max (-2 ^ 31) (min (2 ^ 31 - 1) (rdiv NUM (10 * 2 ^ 41)))
    exec (.frame xs) s = .next
      { s with
        mix := s.mix.advance
        gain := Ten.ofFn fun i => (s.gain.get i).advance
        phase := Ten.ofFn fun i => s.phase.get i + s.inc.get i
        frameCount := s.frameCount + 1
        rsp := s.rsp ++ X.map fun x => BitVec.ofInt 32 (Y x) }

/-- 42_mixing_engine.md R150, 60_exceptions.md R201: a FRAME before the first REINIT enters the fault state
with NOT_INIT and its first sample. -/
def Obligations.FrameBeforeReinitFaults : Prop :=
  ∀ (s : State) (x : Word) (more : List Word), more.length ≤ 7 → s.fault = false → s.init = false →
    exec (.frame (x :: more)) s = .next
      { s with fault := true, cause := .notInit, faultArg := x,
               faultCmd := 0x40000000 + BitVec.ofNat 32 more.length }

/-- 42_mixing_engine.md R154: the bounds of a contribution and of the sum. -/
def Obligations.ToneSumIsBounded : Prop :=
  (∀ t g : Int, -2 ^ 24 ≤ t → t ≤ 2 ^ 24 → 0 ≤ g → g ≤ 65536 →
    -1677722 ≤ contribution t g ∧ contribution t g ≤ 1677722) ∧
  ∀ (phase : Ten Word) (gain : Ten Smoother),
    (∀ i : Fin 10, 0 ≤ (gain.get i).code ∧ (gain.get i).code ≤ 65536) →
      -16777220 ≤ toneSum (tones phase) gain ∧ toneSum (tones phase) gain ≤ 16777220

/-- 42_mixing_engine.md R158: for every input in range the rounded value already fits, so the clamp never
acts. -/
def Obligations.OutputClampNeverActs : Prop :=
  ∀ (m S x : Int) (A : Nat), 0 ≤ m → m ≤ 65536 → -16777220 ≤ S → S ≤ 16777220 →
    -2 ^ 31 ≤ x → x ≤ 2 ^ 31 - 1 → x.natAbs ≤ A →
    -2 ^ 31 ≤ rdiv (modulatorNum m S (sidechain A) x) (10 * 2 ^ 41) ∧
      rdiv (modulatorNum m S (sidechain A) x) (10 * 2 ^ 41) ≤ 2 ^ 31 - 1 ∧
      modulate m S (sidechain A) x = rdiv (modulatorNum m S (sidechain A) x) (10 * 2 ^ 41)

/-- 42_mixing_engine.md R160: a FRAME advances everything once, whatever its samples and its channel
count: two FRAMEs from one state differ in their responses only. -/
def Obligations.FrameAdvanceIgnoresTheChannels : Prop :=
  ∀ (s t u : State) (xs ys : List Word), s.init = true →
    exec (.frame xs) s = .next t → exec (.frame ys) s = .next u → u = { t with rsp := u.rsp }

/-- 42_mixing_engine.md R161: with `m = 0` the output equals the input exactly, for every gain, tone and
SCLINK. -/
def Obligations.ZeroMixIsTheIdentity : Prop :=
  ∀ (s : State) (xs : List Word), 1 ≤ xs.length → xs.length ≤ 8 → s.fault = false → s.init = true →
    s.mix.advance.code = 0 →
    ∃ t, exec (.frame xs) s = .next t ∧ t.rsp = s.rsp ++ xs

/-- 42_mixing_engine.md R162: SCN never increases with the amplitude, strictly decreases below 23488103
and is `3 * 2^25` from there on. -/
def Obligations.DuckingIsMonotone : Prop :=
  (∀ a b : Nat, a ≤ b → sidechain b ≤ sidechain a) ∧
  (∀ a b : Nat, a < b → b ≤ 23488103 → sidechain b < sidechain a) ∧
  ∀ a : Nat, 23488103 ≤ a → sidechain a = 3 * 2 ^ 25

/-- 42_mixing_engine.md R163: the gain gate. -/
def Obligations.GainGateIsExact : Prop :=
  ∀ t g : Int,
    (g ≤ 65 → contribution t g = 0) ∧
    (66 ≤ g → contribution t g = rdiv (t * g) 655360) ∧
    ((t * g).natAbs < 327680 → contribution t g = 0)

/-- 42_mixing_engine.md R155: with SCLINK = 0 every channel's output is a function of its own sample and
the state: no other channel's sample reaches it. -/
def Obligations.UnlinkedChannelsAreIndependent : Prop :=
  ∀ s : State, s.fault = false → s.init = true → s.sclink = false →
    ∃ f : Word → Word, ∀ xs : List Word, 1 ≤ xs.length → xs.length ≤ 8 →
      ∃ t, exec (.frame xs) s = .next t ∧ t.rsp = s.rsp ++ xs.map f

/-- 42_mixing_engine.md R150, R155: with one channel SCLINK has no effect. -/
def Obligations.LinkHasNoEffectOnOneChannel : Prop :=
  ∀ (s t u : State) (x : Word) (b : Bool),
    exec (.frame [x]) s = .next t → exec (.frame [x]) { s with sclink := b } = .next u →
    u = { t with sclink := b }

/-- 42_mixing_engine.md R164: the distance of the output from the source's real-valued law. On the values
the block holds (`y`) it is at most half a unit for the output and half a unit for each of ten tones, scaled;
on the unquantized sine (`z`) the sine unit's own half unit of each tone comes on top. -/
def Obligations.OutputIsCloseToTheRealLaw : Prop :=
  ∀ (m x : Int) (p : Fin 10 → Word) (g : Fin 10 → Int) (A : Nat), 0 ≤ m → m ≤ 65536 →
    (∀ i, 0 ≤ g i ∧ g i ≤ 65536) → -2 ^ 31 ≤ x → x ≤ 2 ^ 31 - 1 → x.natAbs ≤ A →
    let mu : ℝ := m / 2 ^ 16
    let sc : ℝ := 1 - min ((A : ℝ) / 2 ^ 24 / 2) (7 / 10)
    let law : (Fin 10 → ℝ) → ℝ := fun wave =>
      (x : ℝ) / 2 ^ 24 * (1 - mu * (3 / 10)) +
        (∑ i, if (g i : ℝ) / 2 ^ 16 > 1 / 1000 then wave i * ((g i : ℝ) / 2 ^ 16) * (1 / 10) else 0) *
          mu * sc
    let y : ℝ := law fun i => (sinq (p i) : ℝ) / 2 ^ 24
    let z : ℝ := law fun i => Real.sin (2 * Real.pi * (p i).toNat / 2 ^ 32)
    let Y : Int := modulate m (∑ i, contribution (sinq (p i)) (g i)) (sidechain A) x
    |(Y : ℝ) / 2 ^ 24 - y| ≤ (1 + 10 * mu * sc) / 2 ^ 25 ∧
      (1 + 10 * mu * sc) / 2 ^ 25 ≤ 11 / 2 ^ 25 ∧
      |(Y : ℝ) / 2 ^ 24 - z| ≤
        (1 + 10 * mu * sc) / 2 ^ 25 + 1 / 10 * (∑ i, (g i : ℝ) / 2 ^ 16) * mu * sc / 2 ^ 25

/-! ### Control commands (43_control_commands.md) -/

/-- 43_control_commands.md R180: NOP changes nothing, in the fault state too. -/
def Obligations.NopChangesNothing : Prop := ∀ s : State, exec .nop s = .next s

/-- 43_control_commands.md R183, 10_state.md R31: a write of CTRL keeps bit 0 and nothing else. -/
def Obligations.ControlWriteKeepsBitZero : Prop :=
  ∀ (s : State) (data : Word), s.fault = false →
    exec (.wrreg 0x03 data) s = .next { s with sclink := data.getLsbD 0 } ∧
    exec (.rdreg 0x03) { s with sclink := data.getLsbD 0 } = .next
      { s with sclink := data.getLsbD 0, rsp := s.rsp ++ [data &&& 1] }

/-- 43_control_commands.md R182: a WRREG of any index but 0x03, 0x09 and 0x10 to 0x19 enters the fault state
with BAD_REG_WRITE and the data; the register is not written. -/
def Obligations.WriteOfUnwritableRegisterFaults : Prop :=
  ∀ (s : State) (reg : BitVec 8) (data : Word), s.fault = false →
    reg ≠ 0x03 → reg ≠ 0x09 → ¬(0x10 ≤ reg.toNat ∧ reg.toNat ≤ 0x19) →
    exec (.wrreg reg data) s = .next
      { s with fault := true, cause := .badRegWrite, faultArg := data,
               faultCmd := 0x10000000 + reg.setWidth 32 }

/-- 43_control_commands.md R183: a target write changes no other register than the target, the current
value and the remaining length of its own smoother, and STATUS. -/
def Obligations.TargetWriteLeavesOtherRegisters : Prop :=
  ∀ (s : State) (data : Word), s.fault = false →
    (∃ t, exec (.wrreg 0x09 data) s = .next t ∧ t.rsp = s.rsp ∧
      ∀ r : Reg, r ≠ .mixTarget → r ≠ .mixCurrent → r ≠ .mixLeft → r ≠ .status →
        t.value r = s.value r) ∧
    ∀ i : Fin 10, ∃ t, exec (.wrreg (0x10 + BitVec.ofNat 8 i.val) data) s = .next t ∧ t.rsp = s.rsp ∧
      ∀ r : Reg, r ≠ .gainTarget i → r ≠ .gainCurrent i → r ≠ .gainLeft i → r ≠ .status →
        t.value r = s.value r

/-- 20_memory.md R66: a WRREG that is repeated changes nothing more. -/
def Obligations.RepeatedWriteChangesNothing : Prop :=
  ∀ (s t : State) (reg : BitVec 8) (data : Word),
    exec (.wrreg reg data) s = .next t → exec (.wrreg reg data) t = .next t

/-- 43_control_commands.md R184, R186, 10_state.md R28 to R45: the response of a RDREG of each mapped index,
in every state, the fault state too; it changes nothing else (20_memory.md R66). -/
def Obligations.ReadAnswersEachRegister : Prop :=
  ∀ s : State,
    let answers : BitVec 8 → Word → Prop := fun reg w =>
      exec (.rdreg reg) s = .next { s with rsp := s.rsp ++ [w] }
    answers 0x00 0x534F4C46 ∧ answers 0x01 0x00000001 ∧ answers 0x02 s.status ∧
    answers 0x03 (if s.sclink then 1 else 0) ∧ answers 0x04 s.activeRate ∧
    answers 0x05 (BitVec.ofNat 32 s.rampLen) ∧ answers 0x06 s.frameCount ∧
    answers 0x07 s.faultCmd ∧ answers 0x08 s.faultArg ∧
    answers 0x09 (BitVec.ofNat 32 s.mix.target) ∧ answers 0x0A (BitVec.ofInt 32 (s.mix.acc / 65536)) ∧
    answers 0x0B (BitVec.ofNat 32 s.mix.left) ∧
    ∀ i : Fin 10,
      let k := BitVec.ofNat 8 i.val
      answers (0x10 + k) (BitVec.ofNat 32 (s.gain.get i).target) ∧
      answers (0x20 + k) (BitVec.ofInt 32 ((s.gain.get i).acc / 65536)) ∧
      answers (0x30 + k) (BitVec.ofNat 32 (s.gain.get i).left) ∧
      answers (0x40 + k) (s.phase.get i) ∧ answers (0x50 + k) (s.inc.get i) ∧
      answers (0x60 + k) ([174, 285, 396, 417, 432, 528, 639, 741, 852, 963][i.val]!)

/-- 43_control_commands.md R185: a RDREG of a reserved index enters the fault state with BAD_REG_READ and
argument 0, and emits nothing. -/
def Obligations.ReadOfReservedIndexFaults : Prop :=
  ∀ (s : State) (reg : BitVec 8), s.fault = false → (∀ r : Reg, r.index ≠ reg) →
    exec (.rdreg reg) s = .next
      { s with fault := true, cause := .badRegRead, faultArg := 0,
               faultCmd := 0x20000000 + reg.setWidth 32 }

/-- 70_reset_and_hazards.md R244: a read right after a target write answers the clamped value. -/
def Obligations.ReadAfterTargetWrite : Prop :=
  ∀ (s : State) (v : Word), s.fault = false →
    (∃ t u, exec (.wrreg 0x09 v) s = .next t ∧ exec (.rdreg 0x09) t = .next u ∧
      u.rsp = s.rsp ++ [BitVec.ofNat 32 (min v.toNat 65536)]) ∧
    ∀ i : Fin 10, ∃ t u, exec (.wrreg (0x10 + BitVec.ofNat 8 i.val) v) s = .next t ∧
      exec (.rdreg (0x10 + BitVec.ofNat 8 i.val)) t = .next u ∧
      u.rsp = s.rsp ++ [BitVec.ofNat 32 (min v.toNat 65536)]

/-! ### Faults (60_exceptions.md) -/

/-- 60_exceptions.md R202, R210, R211: a command that enters the fault state has no other effect than the
fault record, which holds its command word and its first payload word or 0. -/
def Obligations.FaultsArePrecise : Prop :=
  ∀ (i : Instr) (s t : State), i.wellFormed = true → exec i s = .next t →
    s.fault = false → t.fault = true →
    t = { s with fault := true, cause := t.cause, faultCmd := commandWord i, faultArg := t.faultArg } ∧
      t.cause ≠ .none ∧
      t.faultArg = match i with
        | .nop => 0
        | .wrreg _ data => data
        | .rdreg _ => 0
        | .reinit fs => fs
        | .frame xs => xs.headD 0

/-- 60_exceptions.md R212: in the fault state every command but a RDREG of a mapped register is
discarded. -/
def Obligations.FaultStateDiscardsCommands : Prop :=
  ∀ (i : Instr) (s : State), s.fault = true → i.wellFormed = true →
    (∀ r : Reg, i ≠ .rdreg r.index) → exec i s = .next s

/-- 60_exceptions.md R215, R200, R211, R220: no step without a reset leaves the fault state or changes a
register, a smoother, a phase or the fault record in it, and `irq_fault` stays high; a reset leaves it. -/
def Obligations.FaultStateIsSticky : Prop :=
  ∀ s t : State, s.fault = true → step s = .next t →
    (s.rstN = true →
      t = { s with cp := t.cp, taken := t.taken, rsp := t.rsp, cmdIn := t.cmdIn,
                   received := t.received } ∧
      t.irqFault = true) ∧
    (s.rstN = false → t.fault = false ∧ t.cause = .none)

/-- 60_exceptions.md R212, R213, 30_encoding.md R87: a word with an illegal opcode or a must-be-zero bit
set takes its payload; outside the fault state it then enters the fault state with its cause, its word and
its argument, before any check of the command itself; in the fault state it does nothing more. What a step is
and when `cp` moves are DEDUCED (log 1, log 5). -/
def Obligations.RejectedWordsFault : Prop :=
  ∀ (s : State) (cmd : Word) (payload rest : List Word), s.Accepting →
    s.stream = cmd :: (payload ++ rest) → payload.length = payloadLen cmd →
    let u : State :=
      { s.acceptResponses with taken := [], cmdIn := rest, cp := s.cp + 1 + payload.length }
    (verdict cmd = .illegal → s.fault = false →
      payload = [] ∧ step s = .next
        { u with fault := true, cause := .illegalOpcode, faultCmd := cmd, faultArg := 0 }) ∧
    (verdict cmd = .reserved → s.fault = false →
      step s = .next
        { u with fault := true, cause := .reservedField, faultCmd := cmd,
                 faultArg := payload.headD 0 }) ∧
    (verdict cmd = .illegal ∨ verdict cmd = .reserved → s.fault = true → step s = .next u)

/-! ### The step and reset (60_exceptions.md R212, 70_reset_and_hazards.md) -/

/-- 60_exceptions.md R212: when the stream begins with a command, a step is that command, run in the state
in which its words are taken and `cp` has moved past them; that a step is a whole command with its
transfers is DEDUCED (log 1). -/
def Obligations.StepRunsTheDecodedCommand : Prop :=
  ∀ (s : State) (i : Instr) (rest : List Word), s.Accepting → decode s.stream = .ok i rest →
    step s = exec i
      { s.acceptResponses with taken := [], cmdIn := rest, cp := s.cp + (encode i).length }

/-- A step always has a next state. For a whole command and for a rejected word it is the effect the spec
gives (30_encoding.md R86, R87, 60_exceptions.md R212); where the spec calls the block stuck (20_memory.md
R75, 93_implementation_defined.md I8, I11) it is the model's inference that a wait is a next state with the
record unchanged (DEDUCED, log 2). -/
def Obligations.StepNeverStops : Prop := ∀ s : State, ∃ t, step s = .next t

/-- 70_reset_and_hazards.md R230 to R232: an edge with `rst_n` low, in every state and in the middle of any
command or response, gives exactly the reset state, discards the words and responses in the block, and
leaves every register at 0 but the constants; `irq_fault`, the copy of FAULT, is low from the edge on (DEDUCED,
log 12). That the host's side stays as it is is the model's choice of fields (DESIGN CHOICE, log 4). -/
def Obligations.ResetFromEveryState : Prop :=
  ∀ s : State, s.rstN = false →
    (∃ t, step s = .next t ∧
      t = { init := false, fault := false, cause := .none, sclink := false, activeRate := 0,
            rampLen := 0, frameCount := 0, faultCmd := 0, faultArg := 0, mix := ⟨0, 0, 0, 0⟩,
            gain := Ten.replicate ⟨0, 0, 0, 0⟩, phase := Ten.replicate 0, inc := Ten.replicate 0,
            cp := 0, taken := [], rsp := [], rstN := s.rstN, cmdIn := s.cmdIn,
            rspReady := s.rspReady, received := s.received } ∧
      t.irqFault = false ∧
      ∀ r : Reg, t.value r =
        match r with
        | .id => 0x534F4C46
        | .version => 1
        | .freq i => BitVec.ofNat 32 (Config.freq.get i)
        | _ => 0) ∧
    s.rspValid = false ∧ s.cmdReady = false
end

