-- ==== Sys2Proof/Laws/Decode.lean ====
section
/-! SUPPORT. What the decoder and the encoder do, one lemma a function. -/

namespace Sys2Proof

/-- Every command but a FRAME of the wrong size is well formed. -/
theorem Instr.wellFormed_frame (xs : List Word) :
    (Instr.frame xs).wellFormed = true ↔ 1 ≤ xs.length ∧ xs.length ≤ 8 := by
  unfold Instr.wellFormed
  rw [Bool.and_eq_true, decide_eq_true_eq, decide_eq_true_eq]

/-- The opcode of a command (30_encoding.md R82). -/
def opcodeOf : Instr → BitVec 4
  | .nop => 0
  | .wrreg _ _ => 1
  | .rdreg _ => 2
  | .reinit _ => 3
  | .frame _ => 4

/-- The verdict that stands for a command (30_encoding.md R86). -/
def verdictOf : Instr → Verdict
  | .nop => .nop
  | .wrreg reg _ => .wrreg reg
  | .rdreg reg => .rdreg reg
  | .reinit _ => .reinit
  | .frame xs => .frame xs.length

/-- The opcode of each command word. -/
theorem opField_commandWord {i : Instr} (h : i.wellFormed = true) :
    opField (commandWord i) = opcodeOf i := by
  cases i with
  | nop => rfl
  | wrreg reg data => clear h; simp only [opField, commandWord, opcodeOf]; revert reg; decide
  | rdreg reg => clear h; simp only [opField, commandWord, opcodeOf]; revert reg; decide
  | reinit fs => clear h; simp only [commandWord, opcodeOf]; decide
  | frame xs =>
    have hl := (Instr.wellFormed_frame xs).1 h
    simp only [commandWord, opcodeOf]
    generalize xs.length = n at hl
    obtain ⟨h1, h2⟩ := hl
    interval_cases n <;> decide

/-- The verdict on the command word of a well-formed command. -/
theorem verdict_commandWord {i : Instr} (h : i.wellFormed = true) :
    verdict (commandWord i) = verdictOf i := by
  cases i with
  | nop => rfl
  | wrreg reg data => clear h; simp only [commandWord, verdictOf]; revert reg; decide
  | rdreg reg => clear h; simp only [commandWord, verdictOf]; revert reg; decide
  | reinit fs => clear h; simp only [commandWord, verdictOf]; decide
  | frame xs =>
    have hl := (Instr.wellFormed_frame xs).1 h
    simp only [commandWord, verdictOf]
    generalize xs.length = n at hl
    obtain ⟨h1, h2⟩ := hl
    interval_cases n <;> decide

/-- The payload length is at most eight words. -/
theorem payloadLen_le (cmd : Word) : payloadLen cmd ≤ 8 := by
  unfold payloadLen
  have := (cmd.extractLsb' 0 3).isLt
  split
  · omega
  · split <;> omega

/-- A FRAME verdict's channel count is 1 to 8. -/
theorem verdict_frame {cmd : Word} {c : Nat} (h : verdict cmd = .frame c) :
    1 ≤ c ∧ c ≤ 8 ∧ payloadLen cmd = c := by
  unfold verdict at h
  have hlt := (cmd.extractLsb' 0 3).isLt
  split at h <;> try contradiction
  rename_i h4
  repeat' split at h
  all_goals try contradiction
  rename_i h0 h1 h2 h3
  obtain rfl : (cmd.extractLsb' 0 3).toNat + 1 = c := by simpa using h
  refine ⟨by omega, by omega, ?_⟩
  have h4' : opField cmd = 4#4 := by
    revert h4 h0 h1 h2 h3
    generalize opField cmd = o
    revert o; decide
  simp [payloadLen, h4']

/-- Only WRREG and REINIT verdicts name one payload word, and their words have one. -/
theorem payloadLen_of_verdict {cmd : Word} :
    (∀ reg, verdict cmd = .wrreg reg → payloadLen cmd = 1) ∧
      (verdict cmd = .reinit → payloadLen cmd = 1) := by
  constructor
  · intro reg h
    unfold verdict at h
    repeat' split at h
    all_goals try contradiction
    simp_all [payloadLen]
  · intro h
    unfold verdict at h
    repeat' split at h
    all_goals try contradiction
    simp_all [payloadLen]

/-- What decoding can answer when all the payload is there: never `incomplete`. -/
theorem decode_complete {cmd : Word} {rest : List Word} (h : payloadLen cmd ≤ rest.length) :
    (∃ i, decode (cmd :: rest) = .ok i (rest.drop (payloadLen cmd)) ∧ i.wellFormed = true) ∨
      (decode (cmd :: rest) = .reject .illegal ∧ verdict cmd = .illegal) ∨
      (decode (cmd :: rest) = .reject .reserved ∧ verdict cmd = .reserved) := by
  simp only [decode, show ¬ rest.length < payloadLen cmd by omega, if_false]
  have hp := payloadLen_of_verdict (cmd := cmd)
  have hlen : (rest.take (payloadLen cmd)).length = payloadLen cmd := by simp [h]
  cases hv : verdict cmd with
  | illegal => simp [withPayload]
  | reserved => simp [withPayload]
  | nop => simp [withPayload, Instr.wellFormed]
  | rdreg reg => simp [withPayload, Instr.wellFormed]
  | wrreg reg =>
    rw [hp.1 reg hv] at hlen ⊢
    obtain ⟨d, hd⟩ := List.length_eq_one_iff.1 hlen
    simp [withPayload, hd, Instr.wellFormed]
  | reinit =>
    rw [hp.2 hv] at hlen ⊢
    obtain ⟨d, hd⟩ := List.length_eq_one_iff.1 hlen
    simp [withPayload, hd, Instr.wellFormed]
  | frame c =>
    have := verdict_frame hv
    simp only [withPayload]
    exact .inl ⟨_, rfl, by simp [Instr.wellFormed, Config.maxChannels]; omega⟩

end Sys2Proof
end

