-- ==== Sys2Proof/Laws/Fixed.lean ====
section
/-! SUPPORT. What the two rounding divisions of 00_scope.md R8 do, in the terms of linear arithmetic. -/

namespace Sys2Proof.Machine

theorem rdiv_of_nonneg {n : Int} (h : 0 ≤ n) (d : Nat) : rdiv n d = (2 * n + d) / (2 * d) := by
  obtain ⟨k, rfl⟩ := Int.eq_ofNat_of_zero_le h
  rcases Nat.eq_zero_or_pos k with rfl | hk
  · rcases Nat.eq_zero_or_pos d with rfl | hd
    · simp [rdiv]
    · simp only [rdiv]
      rw [Int.ediv_eq_zero_of_lt (by omega) (by omega)]; simp
  · have : Int.sign (k : Int) = 1 := Int.sign_eq_one_of_pos (by omega)
    simp [rdiv, this]

@[simp] theorem rdiv_neg (n : Int) (d : Nat) : rdiv (-n) d = -rdiv n d := by
  simp [rdiv, Int.sign_neg]

/-- Rounding to nearest is off by at most half a unit. -/
theorem rdiv_close (n : Int) {d : Nat} (hd : 0 < d) :
    -(d : Int) ≤ 2 * (d * rdiv n d - n) ∧ 2 * (d * rdiv n d - n) ≤ d := by
  have pos : ∀ n : Int, 0 ≤ n →
      -(d : Int) ≤ 2 * (d * rdiv n d - n) ∧ 2 * (d * rdiv n d - n) ≤ d := by
    intro n h
    rw [rdiv_of_nonneg h]
    have h1 := Int.emod_add_mul_ediv (2 * n + d) (2 * d)
    have h2 := Int.emod_nonneg (2 * n + d) (b := 2 * d) (by omega)
    have h3 := Int.emod_lt_of_pos (2 * n + d) (b := 2 * d) (by omega)
    constructor <;> nlinarith
  rcases le_total 0 n with h | h
  · exact pos n h
  · have := pos (-n) (by omega)
    rw [rdiv_neg] at this
    constructor <;> linarith [this.1, this.2]

/-- Rounding to nearest never turns the order of two values round. -/
theorem rdiv_mono {n m : Int} (h : n ≤ m) {d : Nat} (hd : 0 < d) : rdiv n d ≤ rdiv m d := by
  have base : ∀ n m : Int, 0 ≤ n → n ≤ m → rdiv n d ≤ rdiv m d := by
    intro n m hn hm
    rw [rdiv_of_nonneg hn, rdiv_of_nonneg (by omega)]
    exact Int.ediv_le_ediv (by omega) (by omega)
  have zero : rdiv 0 d = 0 := by simp [rdiv]
  rcases le_total 0 n with hn | hn
  · exact base n m hn h
  · rcases le_total 0 m with hm | hm
    · have h1 := base 0 m le_rfl hm
      have h2 := base 0 (-n) le_rfl (by omega)
      rw [rdiv_neg] at h2
      omega
    · have := base (-m) (-n) (by omega) (by omega)
      rw [rdiv_neg, rdiv_neg] at this
      omega

/-- A multiple of the divisor divides exactly. -/
theorem rdiv_mul_self (k : Int) {d : Nat} (hd : 0 < d) : rdiv (k * d) d = k := by
  have h := rdiv_close (k * d) hd
  have : (d : Int) * (rdiv (k * d) d - k) * 2 ≤ d ∧ -(d : Int) ≤ (d : Int) * (rdiv (k * d) d - k) * 2 := by
    constructor <;> linarith [h.1, h.2]
  have hd' : (0 : Int) < d := by omega
  by_contra hne
  rcases lt_or_gt_of_ne hne with hlt | hgt
  · nlinarith [this.2]
  · nlinarith [this.1]

@[simp] theorem tdiv_neg (n : Int) (d : Nat) : tdiv (-n) d = -tdiv n d := by
  simp [tdiv, Int.sign_neg]

/-- Truncation of a distance that is not negative: it is not negative, and `d` of it do not pass the
distance by which less than `d` is lost. -/
theorem tdiv_of_nonneg {n : Int} (h : 0 ≤ n) {d : Nat} (hd : 0 < d) :
    0 ≤ tdiv n d ∧ d * tdiv n d ≤ n ∧ n < d * tdiv n d + d := by
  obtain ⟨k, rfl⟩ := Int.eq_ofNat_of_zero_le h
  have e : tdiv (k : Int) d = ((k / d : Nat) : Int) := by
    rcases Nat.eq_zero_or_pos k with rfl | hk
    · simp [tdiv]
    · simp [tdiv, Int.sign_eq_one_of_pos (show (0 : Int) < k by omega)]
  have h1 := Nat.div_add_mod k d
  have h2 := Nat.mod_lt k hd
  rw [e]
  generalize k / d = q at *
  refine ⟨by omega, ?_, ?_⟩
  · exact_mod_cast (by omega : d * q ≤ k)
  · exact_mod_cast (by omega : k < d * q + d)

/-- Truncation of a distance that is not positive. -/
theorem tdiv_of_nonpos {n : Int} (h : n ≤ 0) {d : Nat} (hd : 0 < d) :
    tdiv n d ≤ 0 ∧ n ≤ d * tdiv n d ∧ d * tdiv n d - d < n := by
  have := tdiv_of_nonneg (n := -n) (by omega) hd
  rw [tdiv_neg] at this
  refine ⟨by omega, ?_, ?_⟩ <;> linarith [this.2.1, this.2.2]

end Sys2Proof.Machine
end

