-- ==== Sys2Proof/Laws/Ten.lean ====
section
/-! SUPPORT. The laws of `Ten`: reading what was built, equality entry by entry, the sum of ten entries. -/

namespace Sys2Proof

variable {α : Type}

@[simp] theorem Ten.get_ofFn (f : Fin 10 → α) (i : Fin 10) : (Ten.ofFn f).get i = f i := by
  fin_cases i <;> rfl

@[simp] theorem Ten.get_replicate (a : α) (i : Fin 10) : (Ten.replicate a).get i = a := by
  simp [Ten.replicate]

theorem Ten.get_set (t : Ten α) (i j : Fin 10) (a : α) :
    (t.set i a).get j = if j = i then a else t.get j := by
  simp [Ten.set]

@[simp] theorem Ten.get_set_self (t : Ten α) (i : Fin 10) (a : α) : (t.set i a).get i = a := by
  simp [Ten.get_set]

theorem Ten.get_set_of_ne (t : Ten α) {i j : Fin 10} (a : α) (h : j ≠ i) :
    (t.set i a).get j = t.get j := by
  simp [Ten.get_set, h]

@[simp] theorem Ten.ofFn_get (t : Ten α) : (Ten.ofFn fun i => t.get i) = t := rfl

theorem Ten.ext_get {t u : Ten α} (h : ∀ i, t.get i = u.get i) : t = u := by
  rw [← Ten.ofFn_get t, ← Ten.ofFn_get u, show t.get = u.get from funext h]

@[simp] theorem Ten.set_get (t : Ten α) (i : Fin 10) : t.set i (t.get i) = t :=
  Ten.ext_get fun j => by by_cases h : j = i <;> simp [Ten.get_set, h]

theorem Ten.toList_eq (t : Ten α) : t.toList = (List.finRange 10).map t.get := rfl

theorem Ten.mem_toList (t : Ten α) (a : α) : a ∈ t.toList ↔ ∃ i, t.get i = a := by
  simp [Ten.toList_eq]

theorem Ten.sum_eq (t : Ten Int) : t.sum = ∑ i : Fin 10, t.get i := by
  simp [Fin.sum_univ_succ, Ten.sum, Ten.get]; ring

end Sys2Proof
end

