-- ==== Sys2Proof/Laws/State.lean ====
section
/-! SUPPORT. What each update of the state does to each field: one lemma a field, so that no proof unfolds a
record update. -/

namespace Sys2Proof.Machine

variable (s : State)

/-! ### `raiseFault`: fault entry (60_exceptions.md R210, R211) -/

@[simp] theorem State.raiseFault_init (cmd : Word) (c : Cause) (arg : Word) :
    (s.raiseFault cmd c arg).init = s.init := rfl
@[simp] theorem State.raiseFault_fault (cmd : Word) (c : Cause) (arg : Word) :
    (s.raiseFault cmd c arg).fault = true := rfl
@[simp] theorem State.raiseFault_cause (cmd : Word) (c : Cause) (arg : Word) :
    (s.raiseFault cmd c arg).cause = c := rfl
@[simp] theorem State.raiseFault_sclink (cmd : Word) (c : Cause) (arg : Word) :
    (s.raiseFault cmd c arg).sclink = s.sclink := rfl
@[simp] theorem State.raiseFault_activeRate (cmd : Word) (c : Cause) (arg : Word) :
    (s.raiseFault cmd c arg).activeRate = s.activeRate := rfl
@[simp] theorem State.raiseFault_rampLen (cmd : Word) (c : Cause) (arg : Word) :
    (s.raiseFault cmd c arg).rampLen = s.rampLen := rfl
@[simp] theorem State.raiseFault_frameCount (cmd : Word) (c : Cause) (arg : Word) :
    (s.raiseFault cmd c arg).frameCount = s.frameCount := rfl
@[simp] theorem State.raiseFault_faultCmd (cmd : Word) (c : Cause) (arg : Word) :
    (s.raiseFault cmd c arg).faultCmd = cmd := rfl
@[simp] theorem State.raiseFault_faultArg (cmd : Word) (c : Cause) (arg : Word) :
    (s.raiseFault cmd c arg).faultArg = arg := rfl
@[simp] theorem State.raiseFault_mix (cmd : Word) (c : Cause) (arg : Word) :
    (s.raiseFault cmd c arg).mix = s.mix := rfl
@[simp] theorem State.raiseFault_gain (cmd : Word) (c : Cause) (arg : Word) :
    (s.raiseFault cmd c arg).gain = s.gain := rfl
@[simp] theorem State.raiseFault_phase (cmd : Word) (c : Cause) (arg : Word) :
    (s.raiseFault cmd c arg).phase = s.phase := rfl
@[simp] theorem State.raiseFault_inc (cmd : Word) (c : Cause) (arg : Word) :
    (s.raiseFault cmd c arg).inc = s.inc := rfl
@[simp] theorem State.raiseFault_cp (cmd : Word) (c : Cause) (arg : Word) :
    (s.raiseFault cmd c arg).cp = s.cp := rfl
@[simp] theorem State.raiseFault_taken (cmd : Word) (c : Cause) (arg : Word) :
    (s.raiseFault cmd c arg).taken = s.taken := rfl
@[simp] theorem State.raiseFault_rsp (cmd : Word) (c : Cause) (arg : Word) :
    (s.raiseFault cmd c arg).rsp = s.rsp := rfl
@[simp] theorem State.raiseFault_rstN (cmd : Word) (c : Cause) (arg : Word) :
    (s.raiseFault cmd c arg).rstN = s.rstN := rfl
@[simp] theorem State.raiseFault_cmdIn (cmd : Word) (c : Cause) (arg : Word) :
    (s.raiseFault cmd c arg).cmdIn = s.cmdIn := rfl
@[simp] theorem State.raiseFault_rspReady (cmd : Word) (c : Cause) (arg : Word) :
    (s.raiseFault cmd c arg).rspReady = s.rspReady := rfl
@[simp] theorem State.raiseFault_received (cmd : Word) (c : Cause) (arg : Word) :
    (s.raiseFault cmd c arg).received = s.received := rfl

/-! ### `emit`: emitting responses (00_scope.md R9) -/

@[simp] theorem State.emit_init (ws : List Word) :
    (s.emit ws).init = s.init := rfl
@[simp] theorem State.emit_fault (ws : List Word) :
    (s.emit ws).fault = s.fault := rfl
@[simp] theorem State.emit_cause (ws : List Word) :
    (s.emit ws).cause = s.cause := rfl
@[simp] theorem State.emit_sclink (ws : List Word) :
    (s.emit ws).sclink = s.sclink := rfl
@[simp] theorem State.emit_activeRate (ws : List Word) :
    (s.emit ws).activeRate = s.activeRate := rfl
@[simp] theorem State.emit_rampLen (ws : List Word) :
    (s.emit ws).rampLen = s.rampLen := rfl
@[simp] theorem State.emit_frameCount (ws : List Word) :
    (s.emit ws).frameCount = s.frameCount := rfl
@[simp] theorem State.emit_faultCmd (ws : List Word) :
    (s.emit ws).faultCmd = s.faultCmd := rfl
@[simp] theorem State.emit_faultArg (ws : List Word) :
    (s.emit ws).faultArg = s.faultArg := rfl
@[simp] theorem State.emit_mix (ws : List Word) :
    (s.emit ws).mix = s.mix := rfl
@[simp] theorem State.emit_gain (ws : List Word) :
    (s.emit ws).gain = s.gain := rfl
@[simp] theorem State.emit_phase (ws : List Word) :
    (s.emit ws).phase = s.phase := rfl
@[simp] theorem State.emit_inc (ws : List Word) :
    (s.emit ws).inc = s.inc := rfl
@[simp] theorem State.emit_cp (ws : List Word) :
    (s.emit ws).cp = s.cp := rfl
@[simp] theorem State.emit_taken (ws : List Word) :
    (s.emit ws).taken = s.taken := rfl
@[simp] theorem State.emit_rsp (ws : List Word) :
    (s.emit ws).rsp = s.rsp ++ ws := rfl
@[simp] theorem State.emit_rstN (ws : List Word) :
    (s.emit ws).rstN = s.rstN := rfl
@[simp] theorem State.emit_cmdIn (ws : List Word) :
    (s.emit ws).cmdIn = s.cmdIn := rfl
@[simp] theorem State.emit_rspReady (ws : List Word) :
    (s.emit ws).rspReady = s.rspReady := rfl
@[simp] theorem State.emit_received (ws : List Word) :
    (s.emit ws).received = s.received := rfl

/-! ### `reinitAt`: REINIT (40_oscillator_bank.md R111) -/

@[simp] theorem State.reinitAt_init (fs : Word) :
    (s.reinitAt fs).init = true := rfl
@[simp] theorem State.reinitAt_fault (fs : Word) :
    (s.reinitAt fs).fault = s.fault := rfl
@[simp] theorem State.reinitAt_cause (fs : Word) :
    (s.reinitAt fs).cause = s.cause := rfl
@[simp] theorem State.reinitAt_sclink (fs : Word) :
    (s.reinitAt fs).sclink = s.sclink := rfl
@[simp] theorem State.reinitAt_activeRate (fs : Word) :
    (s.reinitAt fs).activeRate = fs := rfl
@[simp] theorem State.reinitAt_rampLen (fs : Word) :
    (s.reinitAt fs).rampLen = (rdiv fs.toNat 100).toNat := rfl
@[simp] theorem State.reinitAt_frameCount (fs : Word) :
    (s.reinitAt fs).frameCount = 0 := rfl
@[simp] theorem State.reinitAt_faultCmd (fs : Word) :
    (s.reinitAt fs).faultCmd = s.faultCmd := rfl
@[simp] theorem State.reinitAt_faultArg (fs : Word) :
    (s.reinitAt fs).faultArg = s.faultArg := rfl
@[simp] theorem State.reinitAt_mix (fs : Word) :
    (s.reinitAt fs).mix = s.mix.snap := rfl
@[simp] theorem State.reinitAt_gain (fs : Word) :
    (s.reinitAt fs).gain = Ten.ofFn fun i => (s.gain.get i).snap := rfl
@[simp] theorem State.reinitAt_phase (fs : Word) :
    (s.reinitAt fs).phase = Ten.replicate 0 := rfl
@[simp] theorem State.reinitAt_inc (fs : Word) :
    (s.reinitAt fs).inc = Ten.ofFn fun i => phaseIncrement (Config.freq.get i) fs.toNat := rfl
@[simp] theorem State.reinitAt_cp (fs : Word) :
    (s.reinitAt fs).cp = s.cp := rfl
@[simp] theorem State.reinitAt_taken (fs : Word) :
    (s.reinitAt fs).taken = s.taken := rfl
@[simp] theorem State.reinitAt_rsp (fs : Word) :
    (s.reinitAt fs).rsp = s.rsp := rfl
@[simp] theorem State.reinitAt_rstN (fs : Word) :
    (s.reinitAt fs).rstN = s.rstN := rfl
@[simp] theorem State.reinitAt_cmdIn (fs : Word) :
    (s.reinitAt fs).cmdIn = s.cmdIn := rfl
@[simp] theorem State.reinitAt_rspReady (fs : Word) :
    (s.reinitAt fs).rspReady = s.rspReady := rfl
@[simp] theorem State.reinitAt_received (fs : Word) :
    (s.reinitAt fs).received = s.received := rfl

/-! ### `advanceFrame`: a frame's advance (42_mixing_engine.md R160) -/

@[simp] theorem State.advanceFrame_init :
    (s.advanceFrame).init = s.init := rfl
@[simp] theorem State.advanceFrame_fault :
    (s.advanceFrame).fault = s.fault := rfl
@[simp] theorem State.advanceFrame_cause :
    (s.advanceFrame).cause = s.cause := rfl
@[simp] theorem State.advanceFrame_sclink :
    (s.advanceFrame).sclink = s.sclink := rfl
@[simp] theorem State.advanceFrame_activeRate :
    (s.advanceFrame).activeRate = s.activeRate := rfl
@[simp] theorem State.advanceFrame_rampLen :
    (s.advanceFrame).rampLen = s.rampLen := rfl
@[simp] theorem State.advanceFrame_frameCount :
    (s.advanceFrame).frameCount = s.frameCount + 1 := rfl
@[simp] theorem State.advanceFrame_faultCmd :
    (s.advanceFrame).faultCmd = s.faultCmd := rfl
@[simp] theorem State.advanceFrame_faultArg :
    (s.advanceFrame).faultArg = s.faultArg := rfl
@[simp] theorem State.advanceFrame_mix :
    (s.advanceFrame).mix = s.mix.advance := rfl
@[simp] theorem State.advanceFrame_gain :
    (s.advanceFrame).gain = Ten.ofFn fun i => (s.gain.get i).advance := rfl
@[simp] theorem State.advanceFrame_phase :
    (s.advanceFrame).phase = advancePhases s.phase s.inc := rfl
@[simp] theorem State.advanceFrame_inc :
    (s.advanceFrame).inc = s.inc := rfl
@[simp] theorem State.advanceFrame_cp :
    (s.advanceFrame).cp = s.cp := rfl
@[simp] theorem State.advanceFrame_taken :
    (s.advanceFrame).taken = s.taken := rfl
@[simp] theorem State.advanceFrame_rsp :
    (s.advanceFrame).rsp = s.rsp := rfl
@[simp] theorem State.advanceFrame_rstN :
    (s.advanceFrame).rstN = s.rstN := rfl
@[simp] theorem State.advanceFrame_cmdIn :
    (s.advanceFrame).cmdIn = s.cmdIn := rfl
@[simp] theorem State.advanceFrame_rspReady :
    (s.advanceFrame).rspReady = s.rspReady := rfl
@[simp] theorem State.advanceFrame_received :
    (s.advanceFrame).received = s.received := rfl

/-! ### `tookCommand`: taking a command's words (60_exceptions.md R212) -/

@[simp] theorem State.tookCommand_init (n : Nat) (rest : List Word) :
    (s.tookCommand n rest).init = s.init := rfl
@[simp] theorem State.tookCommand_fault (n : Nat) (rest : List Word) :
    (s.tookCommand n rest).fault = s.fault := rfl
@[simp] theorem State.tookCommand_cause (n : Nat) (rest : List Word) :
    (s.tookCommand n rest).cause = s.cause := rfl
@[simp] theorem State.tookCommand_sclink (n : Nat) (rest : List Word) :
    (s.tookCommand n rest).sclink = s.sclink := rfl
@[simp] theorem State.tookCommand_activeRate (n : Nat) (rest : List Word) :
    (s.tookCommand n rest).activeRate = s.activeRate := rfl
@[simp] theorem State.tookCommand_rampLen (n : Nat) (rest : List Word) :
    (s.tookCommand n rest).rampLen = s.rampLen := rfl
@[simp] theorem State.tookCommand_frameCount (n : Nat) (rest : List Word) :
    (s.tookCommand n rest).frameCount = s.frameCount := rfl
@[simp] theorem State.tookCommand_faultCmd (n : Nat) (rest : List Word) :
    (s.tookCommand n rest).faultCmd = s.faultCmd := rfl
@[simp] theorem State.tookCommand_faultArg (n : Nat) (rest : List Word) :
    (s.tookCommand n rest).faultArg = s.faultArg := rfl
@[simp] theorem State.tookCommand_mix (n : Nat) (rest : List Word) :
    (s.tookCommand n rest).mix = s.mix := rfl
@[simp] theorem State.tookCommand_gain (n : Nat) (rest : List Word) :
    (s.tookCommand n rest).gain = s.gain := rfl
@[simp] theorem State.tookCommand_phase (n : Nat) (rest : List Word) :
    (s.tookCommand n rest).phase = s.phase := rfl
@[simp] theorem State.tookCommand_inc (n : Nat) (rest : List Word) :
    (s.tookCommand n rest).inc = s.inc := rfl
@[simp] theorem State.tookCommand_cp (n : Nat) (rest : List Word) :
    (s.tookCommand n rest).cp = s.cp + n := rfl
@[simp] theorem State.tookCommand_taken (n : Nat) (rest : List Word) :
    (s.tookCommand n rest).taken = [] := rfl
@[simp] theorem State.tookCommand_rsp (n : Nat) (rest : List Word) :
    (s.tookCommand n rest).rsp = s.rsp := rfl
@[simp] theorem State.tookCommand_rstN (n : Nat) (rest : List Word) :
    (s.tookCommand n rest).rstN = s.rstN := rfl
@[simp] theorem State.tookCommand_cmdIn (n : Nat) (rest : List Word) :
    (s.tookCommand n rest).cmdIn = rest := rfl
@[simp] theorem State.tookCommand_rspReady (n : Nat) (rest : List Word) :
    (s.tookCommand n rest).rspReady = s.rspReady := rfl
@[simp] theorem State.tookCommand_received (n : Nat) (rest : List Word) :
    (s.tookCommand n rest).received = s.received := rfl

/-! ### `offer`: the host offering words (20_memory.md R74) -/

@[simp] theorem State.offer_init (ws : List Word) :
    (s.offer ws).init = s.init := rfl
@[simp] theorem State.offer_fault (ws : List Word) :
    (s.offer ws).fault = s.fault := rfl
@[simp] theorem State.offer_cause (ws : List Word) :
    (s.offer ws).cause = s.cause := rfl
@[simp] theorem State.offer_sclink (ws : List Word) :
    (s.offer ws).sclink = s.sclink := rfl
@[simp] theorem State.offer_activeRate (ws : List Word) :
    (s.offer ws).activeRate = s.activeRate := rfl
@[simp] theorem State.offer_rampLen (ws : List Word) :
    (s.offer ws).rampLen = s.rampLen := rfl
@[simp] theorem State.offer_frameCount (ws : List Word) :
    (s.offer ws).frameCount = s.frameCount := rfl
@[simp] theorem State.offer_faultCmd (ws : List Word) :
    (s.offer ws).faultCmd = s.faultCmd := rfl
@[simp] theorem State.offer_faultArg (ws : List Word) :
    (s.offer ws).faultArg = s.faultArg := rfl
@[simp] theorem State.offer_mix (ws : List Word) :
    (s.offer ws).mix = s.mix := rfl
@[simp] theorem State.offer_gain (ws : List Word) :
    (s.offer ws).gain = s.gain := rfl
@[simp] theorem State.offer_phase (ws : List Word) :
    (s.offer ws).phase = s.phase := rfl
@[simp] theorem State.offer_inc (ws : List Word) :
    (s.offer ws).inc = s.inc := rfl
@[simp] theorem State.offer_cp (ws : List Word) :
    (s.offer ws).cp = s.cp := rfl
@[simp] theorem State.offer_taken (ws : List Word) :
    (s.offer ws).taken = s.taken := rfl
@[simp] theorem State.offer_rsp (ws : List Word) :
    (s.offer ws).rsp = s.rsp := rfl
@[simp] theorem State.offer_rstN (ws : List Word) :
    (s.offer ws).rstN = s.rstN := rfl
@[simp] theorem State.offer_cmdIn (ws : List Word) :
    (s.offer ws).cmdIn = s.cmdIn ++ ws := rfl
@[simp] theorem State.offer_rspReady (ws : List Word) :
    (s.offer ws).rspReady = s.rspReady := rfl
@[simp] theorem State.offer_received (ws : List Word) :
    (s.offer ws).received = s.received := rfl

/-! ### `driveReset`: the host driving `rst_n` (20_memory.md R74) -/

@[simp] theorem State.driveReset_init (level : Bool) :
    (s.driveReset level).init = s.init := rfl
@[simp] theorem State.driveReset_fault (level : Bool) :
    (s.driveReset level).fault = s.fault := rfl
@[simp] theorem State.driveReset_cause (level : Bool) :
    (s.driveReset level).cause = s.cause := rfl
@[simp] theorem State.driveReset_sclink (level : Bool) :
    (s.driveReset level).sclink = s.sclink := rfl
@[simp] theorem State.driveReset_activeRate (level : Bool) :
    (s.driveReset level).activeRate = s.activeRate := rfl
@[simp] theorem State.driveReset_rampLen (level : Bool) :
    (s.driveReset level).rampLen = s.rampLen := rfl
@[simp] theorem State.driveReset_frameCount (level : Bool) :
    (s.driveReset level).frameCount = s.frameCount := rfl
@[simp] theorem State.driveReset_faultCmd (level : Bool) :
    (s.driveReset level).faultCmd = s.faultCmd := rfl
@[simp] theorem State.driveReset_faultArg (level : Bool) :
    (s.driveReset level).faultArg = s.faultArg := rfl
@[simp] theorem State.driveReset_mix (level : Bool) :
    (s.driveReset level).mix = s.mix := rfl
@[simp] theorem State.driveReset_gain (level : Bool) :
    (s.driveReset level).gain = s.gain := rfl
@[simp] theorem State.driveReset_phase (level : Bool) :
    (s.driveReset level).phase = s.phase := rfl
@[simp] theorem State.driveReset_inc (level : Bool) :
    (s.driveReset level).inc = s.inc := rfl
@[simp] theorem State.driveReset_cp (level : Bool) :
    (s.driveReset level).cp = s.cp := rfl
@[simp] theorem State.driveReset_taken (level : Bool) :
    (s.driveReset level).taken = s.taken := rfl
@[simp] theorem State.driveReset_rsp (level : Bool) :
    (s.driveReset level).rsp = s.rsp := rfl
@[simp] theorem State.driveReset_rstN (level : Bool) :
    (s.driveReset level).rstN = level := rfl
@[simp] theorem State.driveReset_cmdIn (level : Bool) :
    (s.driveReset level).cmdIn = s.cmdIn := rfl
@[simp] theorem State.driveReset_rspReady (level : Bool) :
    (s.driveReset level).rspReady = s.rspReady := rfl
@[simp] theorem State.driveReset_received (level : Bool) :
    (s.driveReset level).received = s.received := rfl

/-! ### `driveReady`: the host driving `rsp_ready` (20_memory.md R74) -/

@[simp] theorem State.driveReady_init (level : Bool) :
    (s.driveReady level).init = s.init := rfl
@[simp] theorem State.driveReady_fault (level : Bool) :
    (s.driveReady level).fault = s.fault := rfl
@[simp] theorem State.driveReady_cause (level : Bool) :
    (s.driveReady level).cause = s.cause := rfl
@[simp] theorem State.driveReady_sclink (level : Bool) :
    (s.driveReady level).sclink = s.sclink := rfl
@[simp] theorem State.driveReady_activeRate (level : Bool) :
    (s.driveReady level).activeRate = s.activeRate := rfl
@[simp] theorem State.driveReady_rampLen (level : Bool) :
    (s.driveReady level).rampLen = s.rampLen := rfl
@[simp] theorem State.driveReady_frameCount (level : Bool) :
    (s.driveReady level).frameCount = s.frameCount := rfl
@[simp] theorem State.driveReady_faultCmd (level : Bool) :
    (s.driveReady level).faultCmd = s.faultCmd := rfl
@[simp] theorem State.driveReady_faultArg (level : Bool) :
    (s.driveReady level).faultArg = s.faultArg := rfl
@[simp] theorem State.driveReady_mix (level : Bool) :
    (s.driveReady level).mix = s.mix := rfl
@[simp] theorem State.driveReady_gain (level : Bool) :
    (s.driveReady level).gain = s.gain := rfl
@[simp] theorem State.driveReady_phase (level : Bool) :
    (s.driveReady level).phase = s.phase := rfl
@[simp] theorem State.driveReady_inc (level : Bool) :
    (s.driveReady level).inc = s.inc := rfl
@[simp] theorem State.driveReady_cp (level : Bool) :
    (s.driveReady level).cp = s.cp := rfl
@[simp] theorem State.driveReady_taken (level : Bool) :
    (s.driveReady level).taken = s.taken := rfl
@[simp] theorem State.driveReady_rsp (level : Bool) :
    (s.driveReady level).rsp = s.rsp := rfl
@[simp] theorem State.driveReady_rstN (level : Bool) :
    (s.driveReady level).rstN = s.rstN := rfl
@[simp] theorem State.driveReady_cmdIn (level : Bool) :
    (s.driveReady level).cmdIn = s.cmdIn := rfl
@[simp] theorem State.driveReady_rspReady (level : Bool) :
    (s.driveReady level).rspReady = level := rfl
@[simp] theorem State.driveReady_received (level : Bool) :
    (s.driveReady level).received = s.received := rfl

/-! ### `acceptOne`: the host accepting one word (20_memory.md R61) -/

@[simp] theorem State.acceptOne_init :
    (s.acceptOne).init = s.init := by
  unfold State.acceptOne; split <;> rfl
@[simp] theorem State.acceptOne_fault :
    (s.acceptOne).fault = s.fault := by
  unfold State.acceptOne; split <;> rfl
@[simp] theorem State.acceptOne_cause :
    (s.acceptOne).cause = s.cause := by
  unfold State.acceptOne; split <;> rfl
@[simp] theorem State.acceptOne_sclink :
    (s.acceptOne).sclink = s.sclink := by
  unfold State.acceptOne; split <;> rfl
@[simp] theorem State.acceptOne_activeRate :
    (s.acceptOne).activeRate = s.activeRate := by
  unfold State.acceptOne; split <;> rfl
@[simp] theorem State.acceptOne_rampLen :
    (s.acceptOne).rampLen = s.rampLen := by
  unfold State.acceptOne; split <;> rfl
@[simp] theorem State.acceptOne_frameCount :
    (s.acceptOne).frameCount = s.frameCount := by
  unfold State.acceptOne; split <;> rfl
@[simp] theorem State.acceptOne_faultCmd :
    (s.acceptOne).faultCmd = s.faultCmd := by
  unfold State.acceptOne; split <;> rfl
@[simp] theorem State.acceptOne_faultArg :
    (s.acceptOne).faultArg = s.faultArg := by
  unfold State.acceptOne; split <;> rfl
@[simp] theorem State.acceptOne_mix :
    (s.acceptOne).mix = s.mix := by
  unfold State.acceptOne; split <;> rfl
@[simp] theorem State.acceptOne_gain :
    (s.acceptOne).gain = s.gain := by
  unfold State.acceptOne; split <;> rfl
@[simp] theorem State.acceptOne_phase :
    (s.acceptOne).phase = s.phase := by
  unfold State.acceptOne; split <;> rfl
@[simp] theorem State.acceptOne_inc :
    (s.acceptOne).inc = s.inc := by
  unfold State.acceptOne; split <;> rfl
@[simp] theorem State.acceptOne_cp :
    (s.acceptOne).cp = s.cp := by
  unfold State.acceptOne; split <;> rfl
@[simp] theorem State.acceptOne_taken :
    (s.acceptOne).taken = s.taken := by
  unfold State.acceptOne; split <;> rfl
@[simp] theorem State.acceptOne_rsp :
    (s.acceptOne).rsp = if s.rstN && s.rspReady then s.rsp.drop 1 else s.rsp := by
  unfold State.acceptOne State.rspTransfer State.rspValid
  cases s.rstN <;> cases s.rspReady <;> cases h : s.rsp <;> simp [h]
@[simp] theorem State.acceptOne_rstN :
    (s.acceptOne).rstN = s.rstN := by
  unfold State.acceptOne; split <;> rfl
@[simp] theorem State.acceptOne_cmdIn :
    (s.acceptOne).cmdIn = s.cmdIn := by
  unfold State.acceptOne; split <;> rfl
@[simp] theorem State.acceptOne_rspReady :
    (s.acceptOne).rspReady = s.rspReady := by
  unfold State.acceptOne; split <;> rfl
@[simp] theorem State.acceptOne_received :
    (s.acceptOne).received =
      if s.rstN && s.rspReady then s.received ++ s.rsp.take 1 else s.received := by
  unfold State.acceptOne State.rspTransfer State.rspValid
  cases s.rstN <;> cases s.rspReady <;> cases h : s.rsp <;> simp

/-! ### `resetEdge`: the reset edge (70_reset_and_hazards.md R230 to R232) -/

@[simp] theorem State.resetEdge_init :
    s.resetEdge.init = State.reset.init := rfl
@[simp] theorem State.resetEdge_fault :
    s.resetEdge.fault = State.reset.fault := rfl
@[simp] theorem State.resetEdge_cause :
    s.resetEdge.cause = State.reset.cause := rfl
@[simp] theorem State.resetEdge_sclink :
    s.resetEdge.sclink = State.reset.sclink := rfl
@[simp] theorem State.resetEdge_activeRate :
    s.resetEdge.activeRate = State.reset.activeRate := rfl
@[simp] theorem State.resetEdge_rampLen :
    s.resetEdge.rampLen = State.reset.rampLen := rfl
@[simp] theorem State.resetEdge_frameCount :
    s.resetEdge.frameCount = State.reset.frameCount := rfl
@[simp] theorem State.resetEdge_faultCmd :
    s.resetEdge.faultCmd = State.reset.faultCmd := rfl
@[simp] theorem State.resetEdge_faultArg :
    s.resetEdge.faultArg = State.reset.faultArg := rfl
@[simp] theorem State.resetEdge_mix :
    s.resetEdge.mix = State.reset.mix := rfl
@[simp] theorem State.resetEdge_gain :
    s.resetEdge.gain = State.reset.gain := rfl
@[simp] theorem State.resetEdge_phase :
    s.resetEdge.phase = State.reset.phase := rfl
@[simp] theorem State.resetEdge_inc :
    s.resetEdge.inc = State.reset.inc := rfl
@[simp] theorem State.resetEdge_cp :
    s.resetEdge.cp = State.reset.cp := rfl
@[simp] theorem State.resetEdge_taken :
    s.resetEdge.taken = State.reset.taken := rfl
@[simp] theorem State.resetEdge_rsp :
    s.resetEdge.rsp = State.reset.rsp := rfl
@[simp] theorem State.resetEdge_rstN :
    s.resetEdge.rstN = s.rstN := rfl
@[simp] theorem State.resetEdge_cmdIn :
    s.resetEdge.cmdIn = s.cmdIn := rfl
@[simp] theorem State.resetEdge_rspReady :
    s.resetEdge.rspReady = s.rspReady := rfl
@[simp] theorem State.resetEdge_received :
    s.resetEdge.received = s.received := rfl

/-! ### `acceptResponses`: the host accepting what waits (20_memory.md R61) -/

@[simp] theorem State.acceptResponses_init :
    s.acceptResponses.init = s.init := by
  unfold State.acceptResponses; split <;> rfl
@[simp] theorem State.acceptResponses_fault :
    s.acceptResponses.fault = s.fault := by
  unfold State.acceptResponses; split <;> rfl
@[simp] theorem State.acceptResponses_cause :
    s.acceptResponses.cause = s.cause := by
  unfold State.acceptResponses; split <;> rfl
@[simp] theorem State.acceptResponses_sclink :
    s.acceptResponses.sclink = s.sclink := by
  unfold State.acceptResponses; split <;> rfl
@[simp] theorem State.acceptResponses_activeRate :
    s.acceptResponses.activeRate = s.activeRate := by
  unfold State.acceptResponses; split <;> rfl
@[simp] theorem State.acceptResponses_rampLen :
    s.acceptResponses.rampLen = s.rampLen := by
  unfold State.acceptResponses; split <;> rfl
@[simp] theorem State.acceptResponses_frameCount :
    s.acceptResponses.frameCount = s.frameCount := by
  unfold State.acceptResponses; split <;> rfl
@[simp] theorem State.acceptResponses_faultCmd :
    s.acceptResponses.faultCmd = s.faultCmd := by
  unfold State.acceptResponses; split <;> rfl
@[simp] theorem State.acceptResponses_faultArg :
    s.acceptResponses.faultArg = s.faultArg := by
  unfold State.acceptResponses; split <;> rfl
@[simp] theorem State.acceptResponses_mix :
    s.acceptResponses.mix = s.mix := by
  unfold State.acceptResponses; split <;> rfl
@[simp] theorem State.acceptResponses_gain :
    s.acceptResponses.gain = s.gain := by
  unfold State.acceptResponses; split <;> rfl
@[simp] theorem State.acceptResponses_phase :
    s.acceptResponses.phase = s.phase := by
  unfold State.acceptResponses; split <;> rfl
@[simp] theorem State.acceptResponses_inc :
    s.acceptResponses.inc = s.inc := by
  unfold State.acceptResponses; split <;> rfl
@[simp] theorem State.acceptResponses_cp :
    s.acceptResponses.cp = s.cp := by
  unfold State.acceptResponses; split <;> rfl
@[simp] theorem State.acceptResponses_taken :
    s.acceptResponses.taken = s.taken := by
  unfold State.acceptResponses; split <;> rfl
@[simp] theorem State.acceptResponses_rstN :
    s.acceptResponses.rstN = s.rstN := by
  unfold State.acceptResponses; split <;> rfl
@[simp] theorem State.acceptResponses_cmdIn :
    s.acceptResponses.cmdIn = s.cmdIn := by
  unfold State.acceptResponses; split <;> rfl
@[simp] theorem State.acceptResponses_rspReady :
    s.acceptResponses.rspReady = s.rspReady := by
  unfold State.acceptResponses; split <;> rfl

@[simp] theorem State.acceptResponses_rsp :
    s.acceptResponses.rsp = if s.rstN && s.rspReady then [] else s.rsp := by
  unfold State.acceptResponses State.rspTransfer State.rspValid
  cases s.rstN <;> cases s.rspReady <;> cases h : s.rsp <;> simp [h]
@[simp] theorem State.acceptResponses_received :
    s.acceptResponses.received =
      if s.rstN && s.rspReady then s.received ++ s.rsp else s.received := by
  unfold State.acceptResponses State.rspTransfer State.rspValid
  cases s.rstN <;> cases s.rspReady <;> cases h : s.rsp <;> simp

/-- Everything accepting can do: nothing moves where the handshake moves nothing, and otherwise all that
waits moves. -/
theorem State.acceptResponses_cases :
    (s.rspTransfer = false ∧ s.acceptResponses = s) ∨
      (s.rspTransfer = true ∧ s.rstN = true ∧ s.rspReady = true ∧ s.rsp ≠ [] ∧
        s.acceptResponses = { s with rsp := [], received := s.received ++ s.rsp }) := by
  cases h : s.rspTransfer
  · exact .inl ⟨rfl, by simp [State.acceptResponses, h]⟩
  · refine .inr ⟨rfl, ?_⟩
    simp only [State.rspTransfer, State.rspValid, Bool.and_eq_true, Bool.not_eq_true',
      List.isEmpty_eq_false_iff] at h
    exact ⟨h.1.1, h.2, h.1.2, by simp [State.acceptResponses, State.rspTransfer, State.rspValid, h]⟩

/-- Accepting what waits twice is accepting it once. -/
@[simp] theorem State.acceptResponses_idem :
    s.acceptResponses.acceptResponses = s.acceptResponses := by
  rcases s.acceptResponses.acceptResponses_cases with ⟨_, e⟩ | ⟨_, h1, h2, h3, _⟩
  · exact e
  · simp only [State.acceptResponses_rstN, State.acceptResponses_rspReady] at h1 h2
    simp [h1, h2] at h3

/-- Accepting word by word until none waits is accepting what waits. -/
theorem State.acceptResponses_eq_iterate (h1 : s.rstN = true) (h2 : s.rspReady = true) :
    State.acceptOne^[s.rsp.length] s = s.acceptResponses := by
  have key : ∀ (n : Nat) (u : State), u.rstN = true → u.rspReady = true → u.rsp.length = n →
      State.acceptOne^[n] u = { u with rsp := [], received := u.received ++ u.rsp } := by
    intro n
    induction n with
    | zero =>
      intro u _ _ hl
      cases u
      simp_all
    | succ n ih =>
      intro u ha hb hl
      have hne : u.rsp ≠ [] := by
        intro hn
        simp [hn] at hl
      have ht : u.rspTransfer = true := by simp [State.rspTransfer, State.rspValid, ha, hb, hne]
      rw [Function.iterate_succ_apply, ih _ (by simp [ha]) (by simp [hb]) (by simp [ha, hb, hl])]
      cases hr : u.rsp <;> simp_all [State.acceptOne]
  rw [key _ s h1 h2 rfl]
  rcases s.acceptResponses_cases with ⟨ht, e⟩ | ⟨_, _, _, _, e⟩
  · have hr : s.rsp = [] := by simpa [State.rspTransfer, State.rspValid, h1, h2] using ht
    rw [e]
    clear e
    cases s
    simp_all
  · rw [e]

/-- Accepting moves words from the block to the host and loses none. -/
@[simp] theorem State.acceptResponses_responses :
    s.acceptResponses.responses = s.responses := by
  simp only [State.responses, State.acceptResponses_received, State.acceptResponses_rsp]
  split <;> simp

end Sys2Proof.Machine
end

