-- ==== Sys2Proof/Laws/Ops.lean ====
section
/-! SUPPORT. What the shared operations do: the smoother's three operations and their invariant, the
fault state's filter, the register map. -/

namespace Sys2Proof.Machine

/-! ### Smoothers -/

/-- A target write, case by case (41_parameter_smoothing.md R132). -/
theorem Smoother.writeTarget_cases (n : Nat) (data : Word) (s : Smoother) :
    (min data.toNat 65536 = s.target ∧ s.writeTarget n data = s) ∨
      (min data.toNat 65536 ≠ s.target ∧ n = 0 ∧ s.writeTarget n data =
        ⟨min data.toNat 65536, (min data.toNat 65536 : Nat) * 2 ^ 16, 0, 0⟩) ∨
      (min data.toNat 65536 ≠ s.target ∧ 0 < n ∧ s.writeTarget n data =
        ⟨min data.toNat 65536, s.acc,
          tdiv ((min data.toNat 65536 : Nat) * 2 ^ 16 - s.acc) n, n⟩) := by
  simp only [Smoother.writeTarget, Config.unity]
  by_cases h : min data.toNat 65536 = s.target
  · exact .inl ⟨h, if_pos h⟩
  · by_cases hn : n = 0
    · exact .inr (.inl ⟨h, hn, by rw [if_neg h, if_pos hn]⟩)
    · exact .inr (.inr ⟨h, by omega, by rw [if_neg h, if_neg hn]⟩)

/-- An advance, case by case (41_parameter_smoothing.md R134). -/
theorem Smoother.advance_cases (s : Smoother) :
    (s.left = 0 ∧ s.advance = s) ∨
      (s.left = 1 ∧ s.advance = ⟨s.target, s.target * 2 ^ 16, s.step, 0⟩) ∨
      (2 ≤ s.left ∧ s.advance = ⟨s.target, s.acc + s.step, s.step, s.left - 1⟩) := by
  simp only [Smoother.advance]
  by_cases h : s.left = 0
  · exact .inl ⟨h, if_pos h⟩
  · by_cases h1 : s.left = 1
    · exact .inr (.inl ⟨h1, by rw [if_neg h, if_pos h1]⟩)
    · exact .inr (.inr ⟨by omega, by rw [if_neg h, if_neg h1]⟩)

@[simp] theorem Smoother.advance_target (s : Smoother) : s.advance.target = s.target := by
  rcases s.advance_cases with ⟨_, h⟩ | ⟨_, h⟩ | ⟨_, h⟩ <;> rw [h]

@[simp] theorem Smoother.advance_left (s : Smoother) : s.advance.left = s.left - 1 := by
  rcases s.advance_cases with ⟨h0, h⟩ | ⟨h0, h⟩ | ⟨h0, h⟩ <;> rw [h] <;> simp [h0]

@[simp] theorem Smoother.advance_step (s : Smoother) : s.advance.step = s.step := by
  rcases s.advance_cases with ⟨_, h⟩ | ⟨_, h⟩ | ⟨_, h⟩ <;> rw [h]

@[simp] theorem Smoother.snap_target (s : Smoother) : s.snap.target = s.target := rfl
@[simp] theorem Smoother.snap_acc (s : Smoother) : s.snap.acc = s.target * 2 ^ 16 := rfl
@[simp] theorem Smoother.snap_step (s : Smoother) : s.snap.step = 0 := rfl
@[simp] theorem Smoother.snap_left (s : Smoother) : s.snap.left = 0 := rfl

/-- A smoother after reset keeps the invariant at every ramp length. -/
theorem Smoother.reset_ok (n : Nat) : Smoother.reset.Ok n := by
  simp [Smoother.Ok, Smoother.reset]

/-- A snapped smoother keeps the invariant at every ramp length. -/
theorem Smoother.snap_ok {s : Smoother} (h : s.target ≤ 65536) (n : Nat) : s.snap.Ok n := by
  exact ⟨h, by rw [Smoother.snap_acc]; omega, by rw [Smoother.snap_acc]; omega,
    by rw [Smoother.snap_step]; omega, by rw [Smoother.snap_step]; omega, Nat.zero_le _, fun _ => rfl,
    fun hlt => absurd hlt (Nat.lt_irrefl 0)⟩

/-- An advance keeps the invariant. -/
theorem Smoother.advance_ok {n : Nat} {s : Smoother} (h : s.Ok n) : s.advance.Ok n := by
  obtain ⟨ht, h0, h1, hs0, hs1, hl, hrest, hramp⟩ := h
  rcases s.advance_cases with ⟨_, e⟩ | ⟨_, e⟩ | ⟨hl2, e⟩
  · rw [e]; exact ⟨ht, h0, h1, hs0, hs1, hl, hrest, hramp⟩
  · rw [e]
    exact ⟨ht, by show (0 : Int) ≤ s.target * 2 ^ 16; omega,
      by show (s.target : Int) * 2 ^ 16 ≤ 2 ^ 32; omega, hs0, hs1, Nat.zero_le _, fun _ => rfl,
      fun hlt => absurd hlt (Nat.lt_irrefl 0)⟩
  · rw [e]
    have hleft : ((s.left - 1 : Nat) : Int) = s.left - 1 := by omega
    have hr := hramp (by omega)
    have hpos : (1 : Int) ≤ (s.left : Int) - 1 := by omega
    refine ⟨ht, ?_, ?_, hs0, hs1, ?_, ?_, ?_⟩
    · show (0 : Int) ≤ s.acc + s.step
      rcases hr with ⟨_, _⟩ | ⟨_, hb⟩
      · omega
      · nlinarith
    · show s.acc + s.step ≤ 2 ^ 32
      rcases hr with ⟨_, hb⟩ | ⟨_, _⟩
      · nlinarith
      · omega
    · show s.left - 1 ≤ n
      omega
    · show s.left - 1 = 0 → _
      omega
    · intro _
      show (0 ≤ s.step ∧ s.acc + s.step + (s.left - 1 : Nat) * s.step ≤ s.target * 2 ^ 16) ∨
        (s.step ≤ 0 ∧ s.target * 2 ^ 16 ≤ s.acc + s.step + (s.left - 1 : Nat) * s.step)
      rw [hleft]
      have e2 : s.acc + s.step + ((s.left : Int) - 1) * s.step = s.acc + s.left * s.step := by ring
      rw [e2]
      exact hr

/-- A target write keeps the invariant. -/
theorem Smoother.writeTarget_ok {n : Nat} {s : Smoother} (h : s.Ok n) (data : Word) :
    (s.writeTarget n data).Ok n := by
  obtain ⟨ht, h0, h1, hs0, hs1, hl, hrest, hramp⟩ := h
  have hT : min data.toNat 65536 ≤ 65536 := Nat.min_le_right _ _
  rcases s.writeTarget_cases n data with ⟨_, e⟩ | ⟨_, _, e⟩ | ⟨_, hn, e⟩
  · rw [e]; exact ⟨ht, h0, h1, hs0, hs1, hl, hrest, hramp⟩
  · rw [e]
    generalize min data.toNat 65536 = T at hT ⊢
    refine ⟨hT, ?_, ?_, ?_, ?_, ?_, fun _ => rfl, ?_⟩ <;> simp
    omega
  · rw [e]
    generalize min data.toNat 65536 = T at hT ⊢
    have hn' : (1 : Int) ≤ n := by omega
    rcases le_total s.acc ((T : Int) * 2 ^ 16) with hd | hd
    · obtain ⟨a, b, _⟩ := tdiv_of_nonneg (n := (T : Int) * 2 ^ 16 - s.acc) (by omega) hn
      have hle : tdiv ((T : Int) * 2 ^ 16 - s.acc) n ≤ n * tdiv ((T : Int) * 2 ^ 16 - s.acc) n := by
        nlinarith
      refine ⟨hT, h0, h1, ?_, ?_, le_rfl, ?_, fun _ => .inl ⟨a, ?_⟩⟩
      · show (-2 ^ 32 : Int) ≤ tdiv _ n
        omega
      · show tdiv _ n ≤ (2 ^ 32 : Int)
        omega
      · show n = 0 → _
        omega
      · show s.acc + n * tdiv _ n ≤ T * 2 ^ 16
        omega
    · obtain ⟨a, b, _⟩ := tdiv_of_nonpos (n := (T : Int) * 2 ^ 16 - s.acc) (by omega) hn
      have hle : n * tdiv ((T : Int) * 2 ^ 16 - s.acc) n ≤ tdiv ((T : Int) * 2 ^ 16 - s.acc) n := by
        nlinarith
      refine ⟨hT, h0, h1, ?_, ?_, le_rfl, ?_, fun _ => .inr ⟨a, ?_⟩⟩
      · show (-2 ^ 32 : Int) ≤ tdiv _ n
        omega
      · show tdiv _ n ≤ (2 ^ 32 : Int)
        omega
      · show n = 0 → _
        omega
      · show (T : Int) * 2 ^ 16 ≤ s.acc + n * tdiv _ n
        omega

/-- The code an invariant smoother presents is a control code (10_state.md R24, R38). -/
theorem Smoother.code_range {n : Nat} {s : Smoother} (h : s.Ok n) : 0 ≤ s.code ∧ s.code ≤ 65536 := by
  obtain ⟨_, h0, h1, _⟩ := h
  simp only [Smoother.code]
  omega

/-! ### The fault state -/

/-- A filtered command answers a next state either way: unchanged in the fault state, its own outside. -/
theorem unlessFaulted_of_fault {s : State} (h : s.fault = true)
    (act : Host.Outcome State Fault Refusal) : unlessFaulted s act = .next s := by
  simp [unlessFaulted, h]

theorem unlessFaulted_of_running {s : State} (h : s.fault = false)
    (act : Host.Outcome State Fault Refusal) : unlessFaulted s act = act := by
  simp [unlessFaulted, h]

theorem unlessFaulted_next {s t : State} {act : Host.Outcome State Fault Refusal} :
    unlessFaulted s act = .next t ↔
      (s.fault = true ∧ t = s) ∨ (s.fault = false ∧ act = .next t) := by
  cases h : s.fault <;> simp [unlessFaulted, h, eq_comm]

/-- A rejected word either does nothing or enters the fault state. -/
theorem State.rejectWord_cases (s : State) (why : Reject) (cmd : Word) (payload : List Word) :
    s.rejectWord why cmd payload = s ∨
      (s.fault = false ∧ why = .illegal ∧
        s.rejectWord why cmd payload = s.raiseFault cmd .illegalOpcode 0) ∨
      (s.fault = false ∧ why = .reserved ∧
        s.rejectWord why cmd payload = s.raiseFault cmd .reservedField (payload.headD 0)) := by
  unfold State.rejectWord
  cases h : s.fault <;> cases why <;> simp

/-! ### The register map -/

/-- The register an index names has that index, and an index that a register has names it
(10_state.md R27). -/
theorem regAt_index (r : Reg) : regAt r.index = some r := by
  cases r <;> first | rfl | (rename_i i; fin_cases i <;> rfl)

end Sys2Proof.Machine
end

