-- ==== Sys2Proof/Laws/PerInstr.lean ====
section
/-! SUPPORT. The families of statements about every command as syntax, one lemma a constructor. -/

namespace Sys2Proof.Laws.EncodedLength

/-- The words of a well-formed command are its command word and the payload words that the command
word's own `L(cmd)` announces (30_encoding.md R80, R84). -/
def Statement (i : Instr) : Prop :=
  i.wellFormed = true → (payloadOf i).length = payloadLen (commandWord i)

theorem nop : Statement .nop := fun _ => by decide

theorem wrreg (reg : BitVec 8) (data : Word) : Statement (.wrreg reg data) := fun h => by
  simp [payloadLen, opField_commandWord h, opcodeOf, payloadOf]

theorem rdreg (reg : BitVec 8) : Statement (.rdreg reg) := fun h => by
  simp [payloadLen, opField_commandWord h, opcodeOf, payloadOf]

theorem reinit (fs : Word) : Statement (.reinit fs) := fun h => by
  simp [payloadLen, opField_commandWord h, opcodeOf, payloadOf]

theorem frame (samples : List Word) : Statement (.frame samples) := fun h => by
  have hv := verdict_commandWord h
  exact (verdict_frame hv).2.2.symm

end Sys2Proof.Laws.EncodedLength
end

