-- ==== Sys2Proof/Laws/Sine.lean ====
section
/-! SUPPORT. Why the integer sine unit is right: its parts against the real cosine. -/

namespace Sys2Proof.Machine

open Real

/-! ### Integer square roots -/

/-- The digit search keeps the root between its bounds. -/
theorem isqrtFrom_spec (k n r : Nat) (h1 : r * r ≤ n) (h2 : n < (r + 2 ^ k) * (r + 2 ^ k)) :
    isqrtFrom k n r * isqrtFrom k n r ≤ n ∧ n < (isqrtFrom k n r + 1) * (isqrtFrom k n r + 1) := by
  induction k generalizing r with
  | zero => exact ⟨h1, by simpa [isqrtFrom] using h2⟩
  | succ k ih =>
    unfold isqrtFrom
    split
    · rename_i h
      refine ih _ h ?_
      rw [Nat.add_assoc, ← Nat.two_mul, ← Nat.pow_succ']
      exact h2
    · rename_i h
      exact ih _ h1 (by omega)

/-- The integer square root of a number below `4^k`. -/
theorem isqrt_spec {k n : Nat} (h : n < 4 ^ k) :
    isqrtFrom k n 0 * isqrtFrom k n 0 ≤ n ∧ n < (isqrtFrom k n 0 + 1) * (isqrtFrom k n 0 + 1) := by
  refine isqrtFrom_spec k n 0 (by omega) ?_
  rw [Nat.zero_add, ← Nat.mul_pow]
  exact h

/-! ### The cosine of a fraction of a turn -/

/-- `cos(2*pi*q / 2^k)`. -/
noncomputable def turnCos (k q : Nat) : ℝ := cos (2 * π * q / 2 ^ k)

theorem turnCos_zero (q : Nat) : turnCos 0 q = 1 := by
  rw [turnCos, pow_zero, div_one, mul_comm, cos_nat_mul_two_pi]

/-- The half-angle formula, from one level to the next. -/
theorem turnCos_succ (k q : Nat) : (2 * turnCos (k + 1) q) ^ 2 = 2 + 2 * turnCos k q := by
  have h : 2 * π * q / 2 ^ k = 2 * (2 * π * q / 2 ^ (k + 1)) := by
    rw [pow_succ]; field_simp
  rw [turnCos, turnCos, h, cos_two_mul]
  ring

theorem turnCos_le_one (k q : Nat) : turnCos k q ≤ 1 := cos_le_one _

theorem neg_one_le_turnCos (k q : Nat) : -1 ≤ turnCos k q := neg_one_le_cos _

/-- Whole turns do not count. -/
theorem turnCos_mod (k q : Nat) : turnCos k (q % 2 ^ k) = turnCos k q := by
  have hq : (q : ℝ) = 2 ^ k * (q / 2 ^ k : Nat) + (q % 2 ^ k : Nat) := by
    exact_mod_cast (Nat.div_add_mod q (2 ^ k)).symm
  have h : 2 * π * q / 2 ^ k = 2 * π * (q % 2 ^ k : Nat) / 2 ^ k + (q / 2 ^ k : Nat) * (2 * π) := by
    rw [hq]
    have : (2 : ℝ) ^ k ≠ 0 := by positivity
    field_simp
    ring_nf
  rw [turnCos, turnCos, h, cos_add_nat_mul_two_pi]

/-- The quadrant test is right. -/
theorem cosNonneg_iff (k q : Nat) : cosNonneg k q = true ↔ 0 ≤ turnCos k q := by
  rw [← turnCos_mod]
  have hlt : q % 2 ^ k < 2 ^ k := Nat.mod_lt _ (by positivity)
  unfold cosNonneg turnCos
  generalize q % 2 ^ k = r at *
  have hp : (0 : ℝ) < 2 ^ k := by positivity
  have hpi := pi_pos
  have hr : (r : ℝ) < 2 ^ k := by exact_mod_cast hlt
  have hr0 : (0 : ℝ) ≤ r := by positivity
  rw [Bool.or_eq_true, decide_eq_true_eq, decide_eq_true_eq]
  constructor
  · rintro (h | h)
    · have h' : (4 : ℝ) * r ≤ 2 ^ k := by exact_mod_cast h
      apply cos_nonneg_of_mem_Icc
      constructor
      · have : 0 ≤ 2 * π * r / 2 ^ k := by positivity
        linarith
      · rw [div_le_iff₀ hp]; nlinarith
    · have h' : (3 : ℝ) * 2 ^ k ≤ 4 * r := by exact_mod_cast h
      rw [← cos_sub_two_pi]
      apply cos_nonneg_of_mem_Icc
      constructor
      · rw [← sub_nonneg]
        have : 2 * π * r / 2 ^ k - 2 * π - -(π / 2) = π * (4 * r - 3 * 2 ^ k) / (2 * 2 ^ k) := by
          field_simp; ring
        rw [this]
        have : (0 : ℝ) ≤ 4 * r - 3 * 2 ^ k := by linarith
        positivity
      · have : 2 * π * r / 2 ^ k ≤ 2 * π := by rw [div_le_iff₀ hp]; nlinarith
        linarith
  · intro h
    by_contra hc
    push Not at hc
    have h1 : (2 : ℝ) ^ k < 4 * r := by exact_mod_cast hc.1
    have h2 : (4 : ℝ) * r < 3 * 2 ^ k := by exact_mod_cast hc.2
    have : cos (2 * π * r / 2 ^ k) < 0 := by
      apply cos_neg_of_pi_div_two_lt_of_lt
      · rw [lt_div_iff₀ hp]; nlinarith
      · rw [div_lt_iff₀ hp]; nlinarith
    linarith

/-! ### Bounds -/

/-- The bounds hold at every level. -/
theorem cosBounds_spec (b k q : Nat) :
    ((cosBounds b k q).lo : ℝ) ≤ 2 ^ b * (2 * turnCos k q) ∧
      2 ^ b * (2 * turnCos k q) ≤ ((cosBounds b k q).hi : ℝ) := by
  induction k with
  | zero => simp [cosBounds, turnCos_zero]; constructor <;> linarith
  | succ k ih =>
    obtain ⟨ihl, ihh⟩ := ih
    have hB : (0 : ℝ) < 2 ^ b := by positivity
    have hx1 := turnCos_le_one k q
    have hx0 := neg_one_le_turnCos k q
    have hsq := turnCos_succ k q
    set w := cosBounds b k q with hw
    set nl := (2 * 2 ^ b + w.lo).toNat * 2 ^ b with hnl
    set nh := (2 * 2 ^ b + min w.hi (2 * 2 ^ b)).toNat * 2 ^ b with hnh
    -- the square of the scaled value lies between the two radicands
    have sq : (2 ^ b * (2 * turnCos (k + 1) q)) ^ 2 = (2 * 2 ^ b + 2 ^ b * (2 * turnCos k q)) * 2 ^ b := by
      rw [mul_pow, hsq]; ring
    have hnonneg : 0 ≤ (2 : ℝ) * 2 ^ b + 2 ^ b * (2 * turnCos k q) := by nlinarith
    have hlo : (nl : ℝ) ≤ (2 ^ b * (2 * turnCos (k + 1) q)) ^ 2 := by
      rw [sq, hnl]
      push_cast
      apply mul_le_mul_of_nonneg_right _ hB.le
      rcases le_total 0 (2 * 2 ^ b + w.lo) with h | h
      · have : (((2 * 2 ^ b + w.lo).toNat : Int) : ℝ) = ((2 * 2 ^ b + w.lo : Int) : ℝ) := by
          rw [Int.toNat_of_nonneg h]
        have e : (((2 * 2 ^ b + w.lo).toNat : ℕ) : ℝ) = 2 * 2 ^ b + (w.lo : ℝ) := by
          rw [← Int.cast_natCast, this]; push_cast; ring
        rw [e]; linarith
      · rw [Int.toNat_of_nonpos h]; simpa using hnonneg
    have hhi : (2 ^ b * (2 * turnCos (k + 1) q)) ^ 2 ≤ (nh : ℝ) := by
      rw [sq, hnh]
      push_cast
      apply mul_le_mul_of_nonneg_right _ hB.le
      have e : ((2 * 2 ^ b + min w.hi (2 * 2 ^ b) : Int) : ℝ) ≤
          (((2 * 2 ^ b + min w.hi (2 * 2 ^ b)).toNat : ℕ) : ℝ) := by
        rw [← Int.cast_natCast]; exact_mod_cast Int.self_le_toNat _
      refine le_trans ?_ e
      push_cast
      have : 2 ^ b * (2 * turnCos k q) ≤ min (w.hi : ℝ) (2 * 2 ^ b) := le_min ihh (by nlinarith)
      linarith
    have bound : nh < 4 ^ (b + 2) ∧ nl < 4 ^ (b + 2) := by
      have hpow : (4 : ℕ) ^ (b + 2) = 16 * (2 ^ b * 2 ^ b) := by
        rw [pow_add, show (4 : ℕ) = 2 * 2 by norm_num, mul_pow]; ring
      have hb1 : 1 ≤ 2 ^ b := Nat.one_le_two_pow
      have lo_le : (w.lo : ℝ) ≤ 2 * 2 ^ b := by nlinarith
      have lo_le' : w.lo ≤ 2 * 2 ^ b := by exact_mod_cast lo_le
      have a1 : (2 * 2 ^ b + w.lo).toNat ≤ 4 * 2 ^ b := by
        rw [Int.toNat_le]; push_cast; linarith
      have a2 : (2 * 2 ^ b + min w.hi (2 * 2 ^ b)).toNat ≤ 4 * 2 ^ b := by
        rw [Int.toNat_le]; push_cast; linarith [min_le_right w.hi (2 * 2 ^ b)]
      rw [hpow, hnl, hnh]
      constructor <;> nlinarith
    obtain ⟨l1, _⟩ := isqrt_spec bound.2
    obtain ⟨_, u2⟩ := isqrt_spec bound.1
    set lo := isqrtFrom (b + 2) nl 0
    set hi := isqrtFrom (b + 2) nh 0
    have l1' : (lo : ℝ) ^ 2 ≤ (2 ^ b * (2 * turnCos (k + 1) q)) ^ 2 := by
      refine le_trans ?_ hlo
      rw [pow_two]; exact_mod_cast l1
    have u2' : (2 ^ b * (2 * turnCos (k + 1) q)) ^ 2 ≤ ((hi : ℝ) + 1) ^ 2 := by
      refine le_trans hhi ?_
      rw [pow_two]; exact_mod_cast u2.le
    have unfolded : cosBounds b (k + 1) q =
        if cosNonneg (k + 1) q then ⟨lo, hi + 1⟩ else ⟨-(hi + 1), -lo⟩ := by
      rfl
    have hlo0 : (0 : ℝ) ≤ lo := by positivity
    have hhi0 : (0 : ℝ) ≤ (hi : ℝ) + 1 := by positivity
    rw [unfolded]
    by_cases hc : cosNonneg (k + 1) q = true
    · have hx : 0 ≤ 2 ^ b * (2 * turnCos (k + 1) q) := by
        have := (cosNonneg_iff _ _).1 hc
        positivity
      rw [if_pos hc]
      push_cast
      exact ⟨(pow_le_pow_iff_left₀ hlo0 hx two_ne_zero).1 l1',
        (pow_le_pow_iff_left₀ hx hhi0 two_ne_zero).1 u2'⟩
    · have hx : 0 ≤ -(2 ^ b * (2 * turnCos (k + 1) q)) := by
        have : turnCos (k + 1) q < 0 := by
          rw [cosNonneg_iff] at hc; linarith
        nlinarith
      rw [if_neg hc]
      push_cast
      have a := (pow_le_pow_iff_left₀ hlo0 hx two_ne_zero).1 (by rw [neg_sq]; exact l1')
      have c := (pow_le_pow_iff_left₀ hx hhi0 two_ne_zero).1 (by rw [neg_sq]; exact u2')
      constructor <;> linarith

/-! ### The exact comparison -/

/-- The exact comparison is the comparison of real numbers. -/
theorem cosCompare_spec (k q : Nat) (a : Int) (e : Nat) :
    (cosCompare k q a e).Compares (2 * turnCos k q) (a / 2 ^ e) := by
  induction k generalizing a e with
  | zero =>
    have h2 : (0 : ℝ) < 2 ^ e := by positivity
    have key := compare_iff (2 * 2 ^ e : Int) a (o := compare (2 * 2 ^ e : Int) a)
    rw [turnCos_zero, cosCompare]
    have hc := (key.1 rfl)
    cases h : compare (2 * 2 ^ e : Int) a <;> rw [h] at hc
    · have hc' : (2 * 2 ^ e : ℝ) < a := by exact_mod_cast hc
      show (2 * 1 : ℝ) < a / 2 ^ e
      rw [lt_div_iff₀ h2]; linarith
    · have hc' : (2 * 2 ^ e : ℝ) = a := by exact_mod_cast hc
      show (2 * 1 : ℝ) = a / 2 ^ e
      rw [eq_div_iff h2.ne']; linarith
    · have hc' : (a : ℝ) < 2 * 2 ^ e := by exact_mod_cast (show a < 2 * 2 ^ e from hc)
      show (2 * 1 : ℝ) > a / 2 ^ e
      rw [gt_iff_lt, div_lt_iff₀ h2]; linarith
  | succ k ih =>
    have h2 : (0 : ℝ) < 2 ^ e := by positivity
    have hsq := turnCos_succ k q
    have ihs := ih (a * a - 2 * 4 ^ e) (2 * e)
    have hval : (((a * a - 2 * 4 ^ e : Int) : ℝ) / 2 ^ (2 * e)) = (a / 2 ^ e) ^ 2 - 2 := by
      have h4 : (4 : ℝ) ^ e = 2 ^ (2 * e) := by rw [pow_mul]; norm_num
      push_cast
      rw [h4, div_pow, ← pow_mul, mul_comm e 2]
      field_simp
    rw [hval] at ihs
    have hx2 : 2 * turnCos k q = (2 * turnCos (k + 1) q) ^ 2 - 2 := by linarith
    rw [hx2] at ihs
    set x := 2 * turnCos (k + 1) q with hx
    set c := (a : ℝ) / 2 ^ e with hc
    unfold cosCompare
    by_cases hq : cosNonneg (k + 1) q = true
    · have x0 : 0 ≤ x := by
        have := (cosNonneg_iff _ _).1 hq
        positivity
      rw [if_pos hq]
      by_cases ha : a < 0
      · rw [if_pos ha]
        have : c < 0 := div_neg_of_neg_of_pos (by exact_mod_cast ha) h2
        show c < x
        linarith
      · rw [if_neg ha]
        have c0 : 0 ≤ c := div_nonneg (by exact_mod_cast not_lt.1 ha) h2.le
        cases h : cosCompare k q (a * a - 2 * 4 ^ e) (2 * e) <;> rw [h] at ihs
        · have ihs' : x ^ 2 - 2 < c ^ 2 - 2 := ihs
          show x < c
          nlinarith
        · have ihs' : x ^ 2 - 2 = c ^ 2 - 2 := ihs
          show x = c
          exact (pow_left_inj₀ x0 c0 two_ne_zero).1 (by linarith)
        · have ihs' : c ^ 2 - 2 < x ^ 2 - 2 := ihs
          show c < x
          nlinarith
    · have x0 : x < 0 := by
        rw [cosNonneg_iff] at hq
        rw [hx]
        linarith
      rw [if_neg hq]
      by_cases ha : 0 ≤ a
      · rw [if_pos ha]
        have : 0 ≤ c := div_nonneg (by exact_mod_cast ha) h2.le
        show x < c
        linarith
      · rw [if_neg ha]
        have c0 : c < 0 := div_neg_of_neg_of_pos (by exact_mod_cast not_le.1 ha) h2
        cases h : cosCompare k q (a * a - 2 * 4 ^ e) (2 * e) <;> rw [h] at ihs
        · have ihs' : x ^ 2 - 2 < c ^ 2 - 2 := ihs
          show c < x
          nlinarith
        · have ihs' : x ^ 2 - 2 = c ^ 2 - 2 := ihs
          show x = c
          have := (pow_left_inj₀ (neg_nonneg.2 x0.le) (neg_nonneg.2 c0.le) two_ne_zero).1
            (by rw [neg_sq, neg_sq]; linarith)
          linarith
        · have ihs' : c ^ 2 - 2 < x ^ 2 - 2 := ihs
          show x < c
          nlinarith

/-! ### Rounding -/

/-- The bit search ends at the integer that `2^24 * cos` rounds to. -/
theorem roundExact_spec (q k n : Nat) (h1 : (n : ℝ) - 1 / 2 ≤ 2 ^ 24 * turnCos 32 q)
    (h2 : 2 ^ 24 * turnCos 32 q < (n + 2 ^ k : ℕ) - 1 / 2) :
    (roundExact q k n : ℝ) - 1 / 2 ≤ 2 ^ 24 * turnCos 32 q ∧
      2 ^ 24 * turnCos 32 q < (roundExact q k n : ℝ) + 1 / 2 := by
  induction k generalizing n with
  | zero =>
    refine ⟨h1, lt_of_lt_of_le h2 ?_⟩
    simp only [roundExact]
    push_cast
    linarith
  | succ k ih =>
    have hcmp := cosCompare_spec 32 q (2 * (n + 2 ^ k : ℕ) - 1) 24
    have hdiv : (((2 * (n + 2 ^ k : ℕ) - 1 : Int) : ℝ) / 2 ^ 24) * 2 ^ 23 =
        ((n + 2 ^ k : ℕ) : ℝ) - 1 / 2 := by
      push_cast; ring
    generalize ((2 * (n + 2 ^ k : ℕ) - 1 : Int) : ℝ) / 2 ^ 24 = c at hcmp hdiv
    unfold roundExact
    by_cases h : cosCompare 32 q (2 * (n + 2 ^ k : ℕ) - 1) 24 = .lt
    · rw [if_pos h]
      rw [h] at hcmp
      have hcmp' : 2 * turnCos 32 q < c := hcmp
      exact ih n h1 (by linarith)
    · rw [if_neg h]
      have hge : c ≤ 2 * turnCos 32 q := by
        cases ho : cosCompare 32 q (2 * (n + 2 ^ k : ℕ) - 1) 24 with
        | lt => exact absurd ho h
        | eq => rw [ho] at hcmp; exact (show 2 * turnCos 32 q = c from hcmp).ge
        | gt => rw [ho] at hcmp; exact (show c < 2 * turnCos 32 q from hcmp).le
      refine ih _ (by linarith) ?_
      rw [Nat.add_assoc, ← Nat.two_mul, ← Nat.pow_succ']
      exact h2

/-- Rounding a scaled value: the integer `n` with `n - 1/2 <= x / 2^(b-23) < n + 1/2`. -/
theorem roundScaled_spec {b : Nat} (hb : 23 ≤ b) (x : Int) :
    (roundScaled b x : ℝ) - 1 / 2 ≤ x / 2 ^ (b - 23) ∧
      (x : ℝ) / 2 ^ (b - 23) < roundScaled b x + 1 / 2 := by
  have hm : (0 : Int) < 2 ^ (b - 23) := by positivity
  have hmr : (0 : ℝ) < 2 ^ (b - 23) := by positivity
  have hpow : (2 : Int) ^ (b - 22) = 2 * 2 ^ (b - 23) := by
    rw [← pow_succ']; congr 1; omega
  have h1 := Int.emod_add_mul_ediv (2 * x + 2 ^ (b - 23)) (2 * 2 ^ (b - 23))
  have h2 := Int.emod_nonneg (2 * x + 2 ^ (b - 23)) (b := 2 * 2 ^ (b - 23)) (by omega)
  have h3 := Int.emod_lt_of_pos (2 * x + 2 ^ (b - 23)) (b := 2 * 2 ^ (b - 23)) (by omega)
  rw [roundScaled, hpow]
  generalize (2 * x + 2 ^ (b - 23)) / (2 * 2 ^ (b - 23)) = n at *
  have l : 2 * 2 ^ (b - 23) * n ≤ 2 * x + 2 ^ (b - 23) := by omega
  have u : 2 * x + 2 ^ (b - 23) < 2 * 2 ^ (b - 23) * n + 2 * 2 ^ (b - 23) := by omega
  have l' : (2 : ℝ) * 2 ^ (b - 23) * n ≤ 2 * x + 2 ^ (b - 23) := by exact_mod_cast l
  have u' : (2 : ℝ) * x + 2 ^ (b - 23) < 2 * 2 ^ (b - 23) * n + 2 * 2 ^ (b - 23) := by
    exact_mod_cast u
  constructor
  · rw [le_div_iff₀ hmr]; linarith
  · rw [div_lt_iff₀ hmr]; linarith

/-- The quarter-turn unit rounds correctly, whichever of its two ways gives the answer. -/
theorem cosRound_spec {q : Nat} (hq : q ≤ 2 ^ 30) :
    (cosRound q : ℝ) - 1 / 2 ≤ 2 ^ 24 * cos (2 * π * q / 2 ^ 32) ∧
      2 ^ 24 * cos (2 * π * q / 2 ^ 32) < cosRound q + 1 / 2 := by
  change _ ≤ 2 ^ 24 * turnCos 32 q ∧ 2 ^ 24 * turnCos 32 q < _
  obtain ⟨hlo, hhi⟩ := cosBounds_spec sinePrec 32 q
  simp only [cosRound]
  set w := cosBounds sinePrec 32 q
  split
  · rename_i h
    have l := (roundScaled_spec (b := sinePrec) (by decide) w.lo).1
    have u := (roundScaled_spec (b := sinePrec) (by decide) w.hi).2
    rw [← h] at u
    have hp : (0 : ℝ) < 2 ^ (sinePrec - 23) := by positivity
    have e : (2 : ℝ) ^ sinePrec = 2 ^ (sinePrec - 23) * 2 ^ 23 := by
      rw [← pow_add]; norm_num [sinePrec]
    rw [e] at hlo hhi
    constructor
    · refine le_trans l ?_
      rw [div_le_iff₀ hp]; linarith
    · refine lt_of_le_of_lt ?_ u
      rw [le_div_iff₀ hp]; linarith
  · have hc0 : 0 ≤ turnCos 32 q := by
      rw [← cosNonneg_iff]
      simp only [cosNonneg, Bool.or_eq_true, decide_eq_true_eq]
      omega
    have hc1 := turnCos_le_one 32 q
    exact_mod_cast roundExact_spec q 25 0 (by push_cast; linarith) (by push_cast; linarith)

end Sys2Proof.Machine
end

