-- ==== Sys2Proof/Laws/Step.lean ====
section
/-! SUPPORT. What each command and a step can do, said once: every case of a next state. -/

namespace Sys2Proof.Machine

/-- What a writable register's write does (43_control_commands.md R183). -/
theorem State.writeReg_cases {s t : State} {data : Word} {r : Reg} (h : s.writeReg data r = some t) :
    (r = .ctrl ∧ t = { s with sclink := data.getLsbD 0 }) ∨
      (r = .mixTarget ∧ t = { s with mix := s.mix.writeTarget s.rampLen data }) ∨
      (∃ i, r = .gainTarget i ∧
        t = { s with gain := s.gain.set i ((s.gain.get i).writeTarget s.rampLen data) }) := by
  cases r <;> simp_all [State.writeReg, eq_comm]

/-- Everything NOP can do. -/
theorem execNop_eq (s : State) : execNop s = .next s := by
  cases h : s.fault <;> simp [execNop, unlessFaulted]

/-- Everything WRREG can do (43_control_commands.md R181). -/
theorem execWrreg_cases (reg : BitVec 8) (data : Word) (s : State) :
    (s.fault = true ∧ execWrreg reg data s = .next s) ∨
      (s.fault = false ∧ ∃ r t, regAt reg = some r ∧ s.writeReg data r = some t ∧
        execWrreg reg data s = .next t) ∨
      (s.fault = false ∧ (regAt reg).bind (s.writeReg data) = none ∧ execWrreg reg data s =
        .next (s.raiseFault (0x10000000 ||| reg.setWidth 32) .badRegWrite data)) := by
  cases hf : s.fault
  · cases hr : (regAt reg).bind (s.writeReg data) with
    | none => simp [execWrreg, unlessFaulted, hf, hr, commandWord]
    | some t =>
      obtain ⟨r, h1, h2⟩ := Option.bind_eq_some_iff.1 hr
      exact .inr (.inl ⟨rfl, r, t, h1, h2, by simp [execWrreg, unlessFaulted, hf, hr]⟩)
  · simp [execWrreg, unlessFaulted, hf]

/-- Everything RDREG can do (43_control_commands.md R184, 60_exceptions.md R212). -/
theorem execRdreg_cases (reg : BitVec 8) (s : State) :
    (∃ r, regAt reg = some r ∧ execRdreg reg s = .next (s.emit [s.value r])) ∨
      (regAt reg = none ∧ s.fault = true ∧ execRdreg reg s = .next s) ∨
      (regAt reg = none ∧ s.fault = false ∧ execRdreg reg s =
        .next (s.raiseFault (0x20000000 ||| reg.setWidth 32) .badRegRead 0)) := by
  cases hr : regAt reg <;> cases hf : s.fault <;>
    simp [execRdreg, unlessFaulted, hf, hr, commandWord]

/-- Everything REINIT can do (40_oscillator_bank.md R111). -/
theorem execReinit_cases (fs : Word) (s : State) :
    (s.fault = true ∧ execReinit fs s = .next s) ∨
      (s.fault = false ∧ (fs.toNat < 8000 ∨ 384000 < fs.toNat) ∧
        execReinit fs s = .next (s.raiseFault 0x30000000 .badRate fs)) ∨
      (s.fault = false ∧ 8000 ≤ fs.toNat ∧ fs.toNat ≤ 384000 ∧
        execReinit fs s = .next (s.reinitAt fs)) := by
  cases hf : s.fault
  · by_cases h : fs.toNat < 8000 ∨ 384000 < fs.toNat
    · exact .inr (.inl ⟨rfl, h, by
        simp [execReinit, unlessFaulted, hf, commandWord, Config.fsMin, Config.fsMax, h]⟩)
    · refine .inr (.inr ⟨rfl, by omega, by omega, ?_⟩)
      simp only [execReinit, unlessFaulted, hf, Config.fsMin, Config.fsMax, if_neg h]
      rfl
  · simp [execReinit, unlessFaulted, hf]

/-- Everything a FRAME of one to eight samples can do (42_mixing_engine.md R150). -/
theorem execFrame_cases {samples : List Word} (h : 1 ≤ samples.length ∧ samples.length ≤ 8)
    (s : State) :
    (s.fault = true ∧ execFrame samples s = .next s) ∨
      (s.fault = false ∧ s.init = false ∧ execFrame samples s =
        .next (s.raiseFault (commandWord (.frame samples)) .notInit (samples.headD 0))) ∨
      (s.fault = false ∧ s.init = true ∧ execFrame samples s =
        .next (s.advanceFrame.emit ((s.frameOut samples).map u32))) := by
  have hw := (Instr.wellFormed_frame samples).2 h
  cases hf : s.fault <;> cases hi : s.init <;>
    simp [execFrame, hw, unlessFaulted, hf, hi]

/-- What taking the next command can come to (60_exceptions.md R212, 20_memory.md R75). -/
theorem State.takeCommand_cases (s : State) :
    (s.stream = [] ∧ s.takeCommand = .settled s) ∨
      (∃ cmd rest, s.stream = cmd :: rest ∧ rest.length < payloadLen cmd ∧
        s.takeCommand = .settled { s with taken := cmd :: rest, cmdIn := [] }) ∨
      (∃ cmd rest i, s.stream = cmd :: rest ∧ payloadLen cmd ≤ rest.length ∧
        decode (cmd :: rest) = .ok i (rest.drop (payloadLen cmd)) ∧ i.wellFormed = true ∧
        s.takeCommand =
          .run i (s.tookCommand (1 + payloadLen cmd) (rest.drop (payloadLen cmd)))) ∨
      (∃ cmd rest why, s.stream = cmd :: rest ∧ payloadLen cmd ≤ rest.length ∧
        (why = .illegal ∧ verdict cmd = .illegal ∨ why = .reserved ∧ verdict cmd = .reserved) ∧
        s.takeCommand = .settled
          ((s.tookCommand (1 + payloadLen cmd) (rest.drop (payloadLen cmd))).rejectWord why cmd
            (rest.take (payloadLen cmd)))) := by
  unfold State.takeCommand
  cases hs : s.stream with
  | nil => exact .inl ⟨rfl, rfl⟩
  | cons cmd rest =>
    by_cases hl : rest.length < payloadLen cmd
    · exact .inr (.inl ⟨cmd, rest, rfl, hl, by simp [hl]⟩)
    · simp only [if_neg hl]
      rcases decode_complete (Nat.le_of_not_lt hl) with ⟨i, hd, hw⟩ | ⟨hd, hv⟩ | ⟨hd, hv⟩
      · exact .inr (.inr (.inl ⟨cmd, rest, i, rfl, by omega, hd, hw, by simp [hd]⟩))
      · exact .inr (.inr (.inr ⟨cmd, rest, .illegal, rfl, by omega, .inl ⟨rfl, hv⟩, by simp [hd]⟩))
      · exact .inr (.inr (.inr ⟨cmd, rest, .reserved, rfl, by omega, .inr ⟨rfl, hv⟩, by simp [hd]⟩))

/-- Everything a step can do: a reset edge, a wait for the host to accept responses, or taking the next
command in the state after the responses have gone. -/
theorem step_cases (s : State) :
    (s.rstN = false ∧ step s = .next s.resetEdge) ∨
      (s.rstN = true ∧ s.rspReady = false ∧ s.rsp ≠ [] ∧ step s = .next s) ∨
      (s.rstN = true ∧ s.acceptResponses.rsp = [] ∧
        step s = match s.acceptResponses.takeCommand with
          | .settled t => .next t
          | .run i t => exec i t) := by
  cases hr : s.rstN
  · exact .inl ⟨rfl, by simp [step, State.nextEvent, hr]⟩
  · by_cases ha : s.acceptResponses.rsp = []
    · have he : s.nextEvent = s.acceptResponses.takeCommand := by
        rw [State.nextEvent, if_pos hr]
        exact if_pos ha
      exact .inr (.inr ⟨rfl, ha, congrArg (fun e => match e with
        | .settled t => Host.Outcome.next t
        | .run i t => exec i t) he⟩)
    · rcases s.acceptResponses_cases with ⟨_, e⟩ | ⟨_, _, _, _, e⟩
      · have hn : s.rsp ≠ [] := by rwa [e] at ha
        have hready : s.rspReady = false := by
          by_contra hc
          simp [hr, hc] at ha
        exact .inr (.inl ⟨rfl, hready, hn, by simp [step, State.nextEvent, hr, e, hn]⟩)
      · exact absurd (by rw [e]) ha

/-- In an accepting state the responses have gone when a command is taken. -/
theorem State.Accepting.rsp_eq_nil {s : State} (h : s.Accepting) : s.acceptResponses.rsp = [] := by
  rw [State.acceptResponses_rsp]
  rcases h.2 with h' | h' <;> simp [h.1, h']

@[simp] theorem State.acceptResponses_stream (s : State) : s.acceptResponses.stream = s.stream := by
  simp [State.stream]

/-- What a step of an accepting state is. -/
theorem step_of_accepting {s : State} (h : s.Accepting) :
    step s = match s.acceptResponses.takeCommand with
      | .settled t => .next t
      | .run i t => exec i t := by
  rcases step_cases s with ⟨h0, _⟩ | ⟨_, h1, h2, _⟩ | ⟨_, _, e⟩
  · rw [h.1] at h0; cases h0
  · rcases h.2 with h' | h'
    · rw [h'] at h1; cases h1
    · exact absurd h' h2
  · exact e

/-- A rejected word leaves the streams and `cp` alone. -/
theorem State.rejectWord_streams (s : State) (why : Reject) (cmd : Word) (payload : List Word) :
    (s.rejectWord why cmd payload).rsp = s.rsp ∧ (s.rejectWord why cmd payload).cp = s.cp ∧
      (s.rejectWord why cmd payload).taken = s.taken ∧
      (s.rejectWord why cmd payload).cmdIn = s.cmdIn ∧
      (s.rejectWord why cmd payload).received = s.received := by
  rcases s.rejectWord_cases why cmd payload with h | ⟨_, _, h⟩ | ⟨_, _, h⟩ <;> rw [h] <;> simp

/-- Every well-formed command answers a next state. -/
theorem exec_of_wellFormed {i : Instr} (hw : i.wellFormed = true) (s : State) :
    ∃ t, exec i s = .next t := by
  cases i with
  | nop => exact ⟨s, execNop_eq s⟩
  | wrreg reg data =>
    rcases execWrreg_cases reg data s with ⟨_, e⟩ | ⟨_, _, _, _, _, e⟩ | ⟨_, _, e⟩ <;> exact ⟨_, e⟩
  | rdreg reg =>
    rcases execRdreg_cases reg s with ⟨_, _, e⟩ | ⟨_, _, e⟩ | ⟨_, _, e⟩ <;> exact ⟨_, e⟩
  | reinit fs =>
    rcases execReinit_cases fs s with ⟨_, e⟩ | ⟨_, _, e⟩ | ⟨_, _, _, e⟩ <;> exact ⟨_, e⟩
  | frame xs =>
    rcases execFrame_cases ((Instr.wellFormed_frame _).1 hw) s with
      ⟨_, e⟩ | ⟨_, _, e⟩ | ⟨_, _, e⟩ <;> exact ⟨_, e⟩

/-- Everything a command that answers a next state can have done, over all commands: nothing, the fault
record, a register write, a response, a REINIT or a frame. -/
theorem exec_cases {i : Instr} {s t : State} (h : exec i s = .next t) :
    t = s ∨
      (s.fault = false ∧ i.wellFormed = true ∧
        ∃ cause, cause ≠ .none ∧
          t = s.raiseFault (commandWord i) cause ((payloadOf i).headD 0)) ∨
      (∃ reg data r, i = .wrreg reg data ∧ s.fault = false ∧ regAt reg = some r ∧
        s.writeReg data r = some t) ∨
      (∃ reg r, i = .rdreg reg ∧ regAt reg = some r ∧ t = s.emit [s.value r]) ∨
      (∃ fs, i = .reinit fs ∧ s.fault = false ∧ 8000 ≤ fs.toNat ∧ fs.toNat ≤ 384000 ∧
        t = s.reinitAt fs) ∨
      (∃ xs, i = .frame xs ∧ 1 ≤ xs.length ∧ xs.length ≤ 8 ∧ s.fault = false ∧ s.init = true ∧
        t = s.advanceFrame.emit ((s.frameOut xs).map u32)) := by
  cases i with
  | nop =>
    rw [exec, execNop_eq] at h
    cases h
    exact .inl rfl
  | wrreg reg data =>
    rcases execWrreg_cases reg data s with ⟨_, e⟩ | ⟨hf, r, u, hr, hw, e⟩ | ⟨hf, _, e⟩ <;>
      rw [exec, e] at h <;> cases h
    · exact .inl rfl
    · exact .inr (.inr (.inl ⟨reg, data, r, rfl, hf, hr, hw⟩))
    · exact .inr (.inl ⟨hf, rfl, .badRegWrite, by decide, rfl⟩)
  | rdreg reg =>
    rcases execRdreg_cases reg s with ⟨r, hr, e⟩ | ⟨_, _, e⟩ | ⟨_, hf, e⟩ <;>
      rw [exec, e] at h <;> cases h
    · exact .inr (.inr (.inr (.inl ⟨reg, r, rfl, hr, rfl⟩)))
    · exact .inl rfl
    · exact .inr (.inl ⟨hf, rfl, .badRegRead, by decide, rfl⟩)
  | reinit fs =>
    rcases execReinit_cases fs s with ⟨_, e⟩ | ⟨hf, _, e⟩ | ⟨hf, h1, h2, e⟩ <;>
      rw [exec, e] at h <;> cases h
    · exact .inl rfl
    · exact .inr (.inl ⟨hf, rfl, .badRate, by decide, rfl⟩)
    · exact .inr (.inr (.inr (.inr (.inl ⟨fs, rfl, hf, h1, h2, rfl⟩))))
  | frame xs =>
    by_cases hw : (Instr.frame xs).wellFormed = true
    · obtain ⟨h1, h2⟩ := (Instr.wellFormed_frame _).1 hw
      rcases execFrame_cases ⟨h1, h2⟩ s with ⟨_, e⟩ | ⟨hf, _, e⟩ | ⟨hf, hi, e⟩ <;>
        rw [exec, e] at h <;> cases h
      · exact .inl rfl
      · exact .inr (.inl ⟨hf, hw, .notInit, by decide, rfl⟩)
      · exact .inr (.inr (.inr (.inr (.inr ⟨xs, rfl, h1, h2, hf, hi, rfl⟩))))
    · simp [exec, execFrame, hw] at h

/-- No command writes the host's side, the words taken or `cp`, and its responses only add to those
waiting. -/
theorem exec_streams {i : Instr} {s t : State} (h : exec i s = .next t) :
    t.cp = s.cp ∧ t.taken = s.taken ∧ t.cmdIn = s.cmdIn ∧ t.rstN = s.rstN ∧
      t.rspReady = s.rspReady ∧ t.received = s.received ∧ ∃ ws, t.rsp = s.rsp ++ ws := by
  rcases exec_cases h with rfl | ⟨_, _, _, _, rfl⟩ | ⟨_, _, _, _, _, _, hw⟩ | ⟨_, _, _, _, rfl⟩ |
    ⟨_, _, _, _, _, rfl⟩ | ⟨_, _, _, _, _, _, rfl⟩
  · simp
  · simp
  · rcases State.writeReg_cases hw with ⟨_, rfl⟩ | ⟨_, rfl⟩ | ⟨_, _, rfl⟩ <;> simp
  · simp
  · simp
  · simp

end Sys2Proof.Machine
end

