-- ==== Sys2Proof/Tests/Slice0.lean ====
section
/-! SUPPORT. Tests of single steps and single operations, their expected values taken from
95_test_vectors.md and 30_encoding.md R91, and for every obligation with hypotheses a witness
`witness_<Obligation>`: concrete values that meet them, at the ends of their ranges. -/

namespace Sys2Proof.Tests

open Sys2Proof Sys2Proof.Machine

-- One theorem after the other: the kernel evaluations of this file side by side need too many threads.
set_option Elab.async false

/-! ### Small states -/

/-- The next state of an outcome, none for a stop. -/
def nextOf : Host.Outcome State Fault Refusal → Option State
  | .next t => some t
  | .fault _ => none
  | .refused _ => none

/-- A smoother that rests at a code. -/
def atRest (code : Nat) : Smoother := ⟨code, code * 65536, 0, 0⟩

/-- The state after reset and a REINIT at a rate. -/
def bank (fs : Word) : State := State.reset.reinitAt fs

/-- The block of V2 before its second FRAME (95_test_vectors.md): mix and gain 4 at 1.0, 44100 Hz. -/
def tuned : State :=
  { bank 44100 with
    mix := atRest 65536
    gain := (Ten.replicate (atRest 0)).set 4 (atRest 65536)
    phase := (Ten.replicate 0).set 4 42073149 }

/-- A block at 8000 Hz whose mix ramps from 0 to 1.0 and whose gain 0 takes its last step. -/
def ramping : State :=
  { bank 8000 with
    mix := ⟨65536, 0, 53687091, 80⟩
    gain := (Ten.replicate (atRest 0)).set 0 ⟨1, 64701, 819, 1⟩ }

/-- A block in the fault state. -/
def broken : State :=
  { State.reset with fault := true, cause := .illegalOpcode, faultCmd := 0x50000000 }

/-- The state with these words offered on the command stream. -/
def given (s : State) (ws : List Word) : State := s.offer ws

/-- The next state of a command, none for a stop. -/
def run (i : Instr) (s : State) : Option State := nextOf (exec i s)

/-! ### Well-formedness, decoding and encoding -/

/-- 30_encoding.md R83: a frame of zero channels, or of nine, has no encoding. -/
theorem test_wellFormed_refuses_channel_counts :
    (Instr.frame []).wellFormed = false ∧ (Instr.frame (List.replicate 9 0)).wellFormed = false ∧
      (Instr.frame [0]).wellFormed = true ∧ (Instr.frame (List.replicate 8 0)).wellFormed = true := by
  decide

/-- 95_test_vectors.md 2.2: the words of each family, bit by bit. -/
theorem test_decode_words :
    decode [0b00000000000000000000000000000000] = .ok .nop [] ∧
    decode [0b00010000000000000000000000001001, 0x00010000] = .ok (.wrreg 0x09 0x00010000) [] ∧
    decode [0b00100000000000000000000001000100] = .ok (.rdreg 0x44) [] ∧
    decode [0b00110000000000000000000000000000, 0x0000AC44] = .ok (.reinit 44100) [] ∧
    decode [0b01000000000000000000000000000001, 7, 8] = .ok (.frame [7, 8]) [] ∧
    decode [0b01000000000000000000000000000111, 1, 2, 3, 4, 5, 6, 7, 8, 9] =
      .ok (.frame [1, 2, 3, 4, 5, 6, 7, 8]) [9] := by
  decide

/-- 95_test_vectors.md 2.2: the reserved and the illegal words, and a payload that has not arrived. -/
theorem test_decode_rejects :
    decode [0x00000001] = .reject .reserved ∧ decode [0x10000109, 7] = .reject .reserved ∧
    decode [0x20000100] = .reject .reserved ∧ decode [0x30000001, 0] = .reject .reserved ∧
    decode [0x40000008, 1] = .reject .reserved ∧
    decode [0x40000017, 1, 2, 3, 4, 5, 6, 7, 8] = .reject .reserved ∧
    decode [0x50000000] = .reject .illegal ∧ decode [0xF0000123] = .reject .illegal ∧
    decode [0x40000001, 7] = .reject .incomplete := by
  decide

/-- 20_memory.md R64: byte 0 of a word is its bits 7:0. -/
theorem test_decode_bytes :
    decodeBytes [0x09, 0x00, 0x00, 0x10, 0x44, 0xAC, 0x01, 0x00] = .ok (.wrreg 0x09 0x0001AC44) [] := by
  decide

/-- The opcode table's rows, with operand words of zeros, and the first step after reset. -/
theorem test_fetch_word :
    decodeTableWord 32 0x40000001 = some (.frame [0, 0]) ∧
    decodeTableWord 64 0x0000AC4430000000 = some (.reinit 44100) ∧
    decodeTableWord 32 0x50000000 = none ∧
    (nextOf (step (State.reset.withFetchWord 64 0x0000AC4430000000))).map (·.rampLen) = some 441 := by
  decide +kernel

/-- 30_encoding.md R89, R90: lines of the assembly language, one with a comment, one with a number that is
rounded. -/
theorem test_assemble_lines :
    assemble "wrreg 0x14, -1 ; all ones\n  SETGAIN 9, q16(0.5)\nsilence 2" =
      some [0x10000014, 0xFFFFFFFF, 0x10000019, 0x00008000, 0x40000001, 0, 0] ∧
    assemble "frame q24(-0.2)" = some [0x40000000, 0xFFCCCCCD] ∧ assemble "frame" = none := by
  decide +kernel

/-! ### Rounding, the sine unit and smoothers -/

/-- 95_test_vectors.md 2.1. -/
theorem test_rounding :
    rdiv 5 2 = 3 ∧ rdiv (-5) 2 = -3 ∧ rdiv 7 3 = 2 ∧ rdiv (-7) 3 = -2 ∧ rdiv 22050 100 = 221 ∧
      tdiv (-7) 2 = -3 ∧ tdiv (-2 ^ 32) 441 = -9739154 := by
  decide

/-- 95_test_vectors.md 2.4. -/
theorem test_sinq :
    sinq 42073149 = 1031979 ∧ sinq 268435456 = 6420363 ∧ sinq 357913941 = 8388608 ∧
      sinq 4294967275 = -1 := by
  decide +kernel

/-- 95_test_vectors.md 2.6: the retarget in the middle of a ramp, its first and its last advance. -/
theorem test_retarget :
    Smoother.writeTarget 441 32768 ⟨65536, 973915400, 9739154, 341⟩ =
      ⟨32768, 973915400, 2661152, 441⟩ ∧
    (Smoother.mk 32768 973915400 2661152 441).advance = ⟨32768, 976576552, 2661152, 440⟩ ∧
    (Smoother.mk 65536 4285227760 9739154 1).advance = ⟨65536, 4294967296, 9739154, 0⟩ := by
  decide

/-! ### The commands, one step each -/

/-- 43_control_commands.md R180: a NOP moves `cp` by its one word. -/
theorem test_nop :
    nextOf (step (given tuned [0x00000000])) = some { tuned with cp := 1 } := by
  decide +kernel

/-- 95_test_vectors.md 2.6: a write above 65536 is clamped. -/
theorem test_wrreg_clamps :
    (nextOf (step (given (bank 44100) [0x10000009, 70000]))).map (·.mix) =
      some ⟨65536, 0, 9739154, 441⟩ := by
  decide +kernel

/-- 95_test_vectors.md 2.9: a write of STATUS. -/
theorem test_wrreg_read_only :
    (nextOf (step (given State.reset [0x10000002, 0xFFFFFFFF]))).map
        (fun t => (t.status, t.faultCmd, t.faultArg)) =
      some (0x00000402, 0x10000002, 0xFFFFFFFF) := by
  decide +kernel

/-- 95_test_vectors.md 2.8: STATUS with a ramp pending. -/
theorem test_rdreg_status :
    (nextOf (step (given ramping [0x20000002]))).map (·.rsp) = some [0x00000005] := by
  decide +kernel

/-- 95_test_vectors.md 2.9: a read of a reserved index. -/
theorem test_rdreg_reserved :
    (nextOf (step (given State.reset [0x2000000C]))).map
        (fun t => (t.status, t.faultCmd, t.faultArg, t.rsp)) =
      some (0x00000302, 0x2000000C, 0, []) := by
  decide +kernel

/-- 95_test_vectors.md 2.3: the increments and the ramp length at 44100 Hz. -/
theorem test_reinit :
    (nextOf (step (given tuned [0x30000000, 0x0000AC44]))).map
        (fun t => (t.rampLen, t.frameCount, t.phase, t.inc)) =
      some (441, 0, Ten.replicate 0,
        ⟨0x010293D1, 0x01A7882F, 0x024C7C8D, 0x026BB1B4, 0x0281FC3D,
          0x0310A612, 0x03B59A70, 0x044D2EE2, 0x04F2233F, 0x0597179D⟩) := by
  decide +kernel

/-- 95_test_vectors.md 2.3: a rate just above the highest. -/
theorem test_reinit_bad_rate :
    (nextOf (step (given State.reset [0x30000000, 0x0005DC01]))).map
        (fun t => (t.status, t.faultCmd, t.faultArg, t.activeRate)) =
      some (0x00000502, 0x30000000, 0x0005DC01, 0) := by
  decide +kernel

/-- 95_test_vectors.md 2.7: stereo, unlinked. -/
theorem test_frame_unlinked :
    (nextOf (step (given tuned [0x40000001, 0, 33554432]))).map
        (fun t => (t.rsp, t.frameCount, t.phase.e4)) =
      some ([0x0001931E, 0x0166DF56], 1, 84146298) := by
  decide +kernel

/-- 95_test_vectors.md 2.7: stereo, linked. -/
theorem test_frame_linked :
    (nextOf (step (given { tuned with sclink := true } [0x40000001, 0, 33554432]))).map (·.rsp) =
      some [0x000078EF, 0x0166DF56] := by
  decide +kernel

/-- 95_test_vectors.md 2.9: reserved before bad rate, and the first payload word as argument. -/
theorem test_reserved_word_faults :
    (nextOf (step (given State.reset [0x30000001, 0x00000000]))).map (·.status) = some 0x00000202 ∧
    (nextOf (step (given State.reset [0x40000017, 1, 2, 3, 4, 5, 6, 7, 8, 9]))).map
        (fun t => (t.status, t.faultArg, t.cp, t.cmdIn)) = some (0x00000202, 1, 9, [9]) := by
  decide +kernel

/-- 95_test_vectors.md 2.9: the fault state discards an illegal word and answers a read of STATUS. -/
theorem test_fault_state :
    nextOf (step (given broken [0x60000000])) = some { broken with cp := 1 } ∧
    (nextOf (step (given broken [0x20000002]))).map (·.rsp) = some [0x00000102] ∧
    broken.irqFault = true := by
  decide +kernel

/-- 70_reset_and_hazards.md R230 to R232: a reset in the middle of a FRAME's responses. -/
theorem test_reset_edge :
    nextOf (step (State.driveReset { tuned with rsp := [5], taken := [0x40000000] } false)) =
      some (State.driveReset State.reset false) := by
  decide +kernel

/-- 20_memory.md R61: no response word moves where `rsp_valid` or `rsp_ready` is 0, and one where both
are 1. -/
theorem test_accept_needs_handshake :
    (State.acceptOne { tuned with rstN := false, rsp := [5] }).received = [] ∧
    (State.acceptOne { tuned with rspReady := false, rsp := [5] }).received = [] ∧
    ((State.acceptOne { tuned with rsp := [5, 6] }).received,
      (State.acceptOne { tuned with rsp := [5, 6] }).rsp) = ([5], [6]) := by
  decide +kernel

/-! ### Witnesses: notation, state, streams, encoding -/

theorem witness_RoundingDivisions :
    0 < 1 ∧ 2 * (5 : Int) = (2 * 2 + 1) * (2 : Nat) ∧ 2 * (-5 : Int) = -((2 * 2 + 1) * (2 : Nat)) ∧
      2 * (1 : Int) = (2 * 0 + 1) * (2 : Nat) ∧ rdiv 1 2 = 1 ∧ rdiv (-1) 2 = -1 ∧ rdiv 0 5 = 0 := by
  decide

theorem witness_OutputPinsFollowTheState :
    ({ broken with rsp := [1], rspReady := false } : State).rstN = true ∧
      ({ broken with rsp := [1], rspReady := false } : State).rsp ≠ [] ∧
      (State.driveReset broken false).rstN = false ∧ broken.irqFault = true ∧
      (State.driveReset broken false).irqFault = true ∧
      (nextOf (step (State.driveReset broken false))).map (·.irqFault) = some false ∧
      tuned.irqFault = false ∧ tuned.rspValid = false := by
  decide +kernel

theorem witness_TransfersNeedValidAndReady :
    let s : State := { tuned with rsp := [1, 2], cmdIn := [0x00000000] }
    let u : State := { s with rspReady := false }
    let w : State := { s with rstN := false }
    s.rspValid = true ∧ s.rspReady = true ∧
      (nextOf (step s)).map (fun t => (t.received, t.cmdIn)) = some ([1, 2], []) ∧
      u.rspReady = false ∧ u.cmdReady = false ∧
      (nextOf (step u)).map (fun t => (t.received, t.cmdIn)) = some ([], [0]) ∧
      w.rspValid = false ∧ w.cmdReady = false ∧
      (nextOf (step w)).map (fun t => (t.received, t.cmdIn)) = some ([], [0]) := by
  decide +kernel

theorem witness_UnusedRegisterBitsReadZero : ramping.Inv ∧ (bank 384000).Inv ∧ broken.Inv := by
  refine ⟨?_, ?_, ?_⟩ <;> decide +kernel

theorem witness_StepKeepsInv :
    (given ramping [0x40000000, 0]).Inv ∧
      (nextOf (step (given ramping [0x40000000, 0]))).map (fun t => (t.mix.left, t.gain.e0.acc)) =
        some (79, 65536) := by
  refine ⟨?_, ?_⟩ <;> decide +kernel

theorem witness_OnlyNamedCommandsWriteEachRegister :
    (run (.reinit 8000) tuned).map (·.activeRate) = some 8000 ∧ tuned.activeRate = 44100 ∧
    (run (.frame [0]) tuned).map (·.frameCount) = some 1 ∧ tuned.frameCount = 0 ∧
    (run (.wrreg 0x03 1) tuned).map (·.sclink) = some true ∧ tuned.sclink = false ∧
    (run (.wrreg 0x09 0) tuned).map (·.mix.target) = some 0 ∧ tuned.mix.target = 65536 ∧
    (run (.wrreg 0x19 5) tuned).map (·.gain.e9.target) = some 5 ∧ tuned.gain.e9.target = 0 ∧
    (run (.rdreg 0x00) tuned).map (·.rsp) = some [0x534F4C46] ∧ tuned.rsp = [] ∧
    (run .nop tuned).map (·.cp) = some 0 := by
  decide +kernel

theorem witness_ByteSerialTransportIsLittleEndian :
    (bytesOfWord 0x01020304)[0]? = some 0x04 ∧ (bytesOfWord 0x01020304)[3]? = some 0x01 ∧
      (Instr.frame [1, 2]).wellFormed = true := by
  decide

theorem witness_ResponsesAreNeverLostOrReordered :
    (given { tuned with rsp := [1, 2], received := [0] } [0x20000000]).rstN = true ∧
      (nextOf (step (given { tuned with rsp := [1, 2], received := [0] } [0x20000000]))).map
        (fun t => (t.received, t.rsp)) = some ([0, 1, 2], [0x534F4C46]) := by
  decide +kernel

theorem witness_CommandStreamIsTakenInOrder :
    (given { tuned with taken := [0x40000001, 7] } [8, 9]).rstN = true ∧
      (nextOf (step (given { tuned with taken := [0x40000001, 7] } [8, 9]))).map
        (fun t => (t.stream, t.cp)) = some ([9], 3) := by
  decide +kernel

theorem witness_IncompleteCommandWaits :
    (given tuned []).Accepting ∧ (given tuned []).stream = [] ∧
    (given { tuned with rspReady := false } [0x40000007, 1, 2, 3, 4, 5, 6, 7]).Accepting ∧
    payloadLen 0x40000007 = 8 ∧
    (nextOf (step (given tuned [0x40000007, 1, 2, 3, 4, 5, 6, 7]))).map (·.taken) =
      some [0x40000007, 1, 2, 3, 4, 5, 6, 7] := by
  decide +kernel

theorem witness_WaitingForWordsIsInvisible :
    (given tuned [0x30000000]).Accepting ∧ wordsIncomplete (given tuned [0x30000000]).stream = true ∧
      (nextOf (step (given tuned [0x30000000]))).isSome = true ∧
      ((nextOf (step (given tuned [0x30000000]))).bind fun t =>
        (nextOf (step (t.offer [8000]))).map (·.rampLen)) = some 80 := by
  decide +kernel

theorem witness_ResultsDependOnTheWordsAlone :
    let s := given tuned [0x30000000, 8000]
    let u : State := { tuned with taken := [0x30000000], cmdIn := [8000], rsp := [3], received := [1] }
    let w : State := { tuned with taken := [0x30000000, 8000], rspReady := false }
    s.Accepting ∧ u.Accepting ∧ w.Accepting ∧ s.stream = u.stream ∧ s.stream = w.stream ∧
      u = { s with taken := u.taken, cmdIn := u.cmdIn, rsp := u.rsp, rspReady := u.rspReady,
                   received := u.received } ∧
      (nextOf (step s)).map (·.rampLen) = some 80 ∧ (nextOf (step u)).map (·.rampLen) = some 80 ∧
      (nextOf (step w)).map (·.rampLen) = some 80 := by
  decide +kernel

theorem witness_BackPressureStallsTheBlock :
    ({ tuned with rspReady := false, rsp := [1], cmdIn := [0] } : State).rstN = true ∧
      ({ tuned with rspReady := false, rsp := [1], cmdIn := [0] } : State).rsp ≠ [] := by
  decide +kernel

theorem witness_DecodeOfEncode :
    (Instr.frame [1]).wellFormed = true ∧ decode (encode (.frame [1]) ++ [9]) = .ok (.frame [1]) [9] ∧
    (Instr.wrreg 0xFF 0xFFFFFFFF).wellFormed = true ∧ (Instr.rdreg 0).wellFormed = true ∧
      (Instr.reinit 0).wellFormed = true ∧ Instr.nop.wellFormed = true := by
  decide

theorem witness_EncodeOfDecode :
    decode [0x40000007, 1, 2, 3, 4, 5, 6, 7, 8, 9] = .ok (.frame [1, 2, 3, 4, 5, 6, 7, 8]) [9] ∧
      decode [0x100000FF, 3] = .ok (.wrreg 0xFF 3) [] ∧ decode [0, 1] = .ok .nop [1] := by
  decide

theorem witness_OpcodeMapMatchesItsMasks :
    verdict 0 = .nop ∧ verdict 0x100000FF = .wrreg 0xFF ∧ verdict 0x20000000 = .rdreg 0 ∧
      verdict 0x30000000 = .reinit ∧ verdict 0x40000007 = .frame 8 ∧ verdict 0x50000000 = .illegal ∧
      verdict 0xFFFFFFFF = .illegal ∧ verdict 0x40000008 = .reserved := by
  decide

theorem witness_PayloadLengthReadsTwoFields :
    (0x40000017 : Word).extractLsb' 28 4 = (0x40000007 : Word).extractLsb' 28 4 ∧
      (0x40000017 : Word).extractLsb' 0 3 = (0x40000007 : Word).extractLsb' 0 3 ∧
      payloadLen 0x40000017 = 8 ∧ payloadLen 0x10000109 = 1 ∧ payloadLen 0x50000000 = 0 := by
  decide

theorem witness_PseudoInstructionsAreOneCommand :
    encode (silence 1) = [0x40000000, 0] ∧ (encode (silence 8)).length = 9 := by
  decide

theorem witness_ResponseCountOfEachCommand :
    (run (.frame [1, 2]) tuned).map (fun t => (t.fault, t.rsp.length)) = some (false, 2) ∧
    (run (.rdreg 0x0C) tuned).map (fun t => (t.fault, t.rsp)) = some (true, []) ∧
    (run (.rdreg 0x07) broken).map (·.rsp) = some [0x50000000] ∧
    (run (.rdreg 0x0C) broken).map (·.rsp) = some [] ∧ broken.fault = true ∧ tuned.fault = false := by
  decide +kernel

/-! ### Witnesses: the oscillator bank -/

theorem witness_SineUnitProperties :
    sinq 4294967295 = 0 ∧ sinq 1 = 0 ∧ sinq 2147483627 = 1 ∧ sinq 20 = 0 := by
  decide +kernel

theorem witness_PhaseWrapSubtractsOneTurn :
    (advancePhases (Ten.replicate 0xFFFFFFFF) (Ten.replicate 1)).e9 = 0 ∧
      (advancePhases (Ten.replicate 0xFFFFFFFE) (Ten.replicate 1)).e9 = 0xFFFFFFFF ∧
      (advancePhases (Ten.replicate 4136053504) (Ten.replicate 517006688)).e9 = 358092896 := by
  decide

theorem witness_IncrementsAreNearestAndInRange :
    tuned.fault = false ∧ 8000 ≤ (8000 : Word).toNat ∧ (384000 : Word).toNat ≤ 384000 ∧
      (run (.reinit 8000) tuned).map (·.inc.e9) = some 517006688 ∧
      (run (.reinit 384000) tuned).map (·.inc.e0) = some 1946157 := by
  decide +kernel

theorem witness_FrequencyRealizedIsClose :
    State.reset.fault = false ∧ 8000 ≤ (44100 : Word).toNat ∧ (44100 : Word).toNat ≤ 384000 ∧
      (run (.reinit 44100) State.reset).map (·.inc.e4) = some 42073149 := by
  decide +kernel

theorem witness_ReinitEffects :
    ramping.fault = false ∧ (8000 : Word).toNat = 8000 ∧ (384000 : Word).toNat = 384000 ∧
      (7999 : Word).toNat < 8000 ∧ 384000 < (384001 : Word).toNat ∧
      (run (.reinit 8000) ramping).map (·.mix) = some (atRest 65536) ∧
      (run (.reinit 7999) ramping).map (fun t => (t.cause, t.faultArg)) = some (.badRate, 7999) := by
  decide +kernel

theorem witness_RampLengthIsTenMilliseconds :
    ramping.fault = false ∧ (run (.reinit 8000) ramping).map (·.rampLen) = some 80 ∧
      (run (.reinit 22050) ramping).map (·.rampLen) = some 221 ∧
      (run (.reinit 384000) ramping).map (·.rampLen) = some 3840 := by
  decide +kernel

/-! ### Witnesses: parameter smoothing -/

theorem witness_TargetWriteLaw :
    State.reset.fault = false ∧ State.reset.rampLen = 0 ∧ State.reset.mix.target ≠ 65536 ∧
      (State.reset.gain.get 9).target ≠ 1 ∧ tuned.fault = false ∧ 0 < tuned.rampLen ∧
      tuned.mix.target = min (0xFFFFFFFF : Word).toNat 65536 ∧
      tuned.mix.target ≠ min (65535 : Word).toNat 65536 ∧
      (tuned.gain.get 4).target = min (65537 : Word).toNat 65536 ∧
      (tuned.gain.get 0).target ≠ min (1 : Word).toNat 65536 ∧
      (run (.wrreg 0x10 1) tuned).map (·.gain.e0) = some ⟨1, 0, 148, 441⟩ := by
  decide +kernel

/-- 95_test_vectors.md 2.6: the ramp at 8000 Hz, at its first, last but one and last advance; a ramp of one
advance; and a write of the target held. -/
theorem witness_RampProperties :
    min (65536 : Word).toNat 65536 ≠ (atRest 0).target ∧
    (Smoother.advance^[1] ((atRest 0).writeTarget 80 65536)).code = 819 ∧
    (Smoother.advance^[79] ((atRest 0).writeTarget 80 65536)).acc = 4241280189 ∧
    Smoother.advance^[80] ((atRest 0).writeTarget 80 65536) = ⟨65536, 2 ^ 32, 53687091, 0⟩ ∧
    (Smoother.advance^[1] ((atRest 7).writeTarget 1 3)).code = 3 ∧
    (0 < 3840 ∧ 3840 ≤ 3840 ∧ (atRest 3).writeTarget 3840 3 = atRest 3) := by
  decide +kernel

theorem witness_FrameAdvancesEachSmootherOnce :
    ramping.fault = false ∧ ramping.init = true ∧ 2 ≤ ramping.mix.left ∧ ramping.gain.e0.left = 1 ∧
      ramping.gain.e9.left = 0 ∧ ([0] : List Word).length = 1 ∧
      ([1, 2, 3, 4, 5, 6, 7, 8] : List Word).length = 8 := by
  decide +kernel

/-! ### Witnesses: the mixing engine -/

theorem witness_FrameEffects :
    tuned.fault = false ∧ tuned.init = true ∧ (run (.frame [16777216]) tuned).map (·.rsp) =
      some [0x00B3FCC2] := by
  decide +kernel

theorem witness_FrameBeforeReinitFaults :
    State.reset.fault = false ∧ State.reset.init = false ∧ ([] : List Word).length ≤ 7 ∧
      ([1, 2, 3, 4, 5, 6, 7] : List Word).length ≤ 7 ∧
      (run (.frame [0xAAAA, 0xBBBB]) State.reset).map
        (fun t => (t.status, t.faultCmd, t.faultArg)) = some (0x00000602, 0x40000001, 0xAAAA) := by
  decide +kernel

theorem witness_ToneSumIsBounded :
    contribution (2 ^ 24) 65536 = 1677722 ∧ contribution (-2 ^ 24) 65536 = -1677722 ∧
      contribution 5 0 = 0 ∧
      ∀ i : Fin 10, ((Ten.replicate (atRest 65536)).get i).code = 65536 ∧
        ((Ten.replicate (atRest 0)).get i).code = 0 := by
  decide +kernel

theorem witness_OutputClampNeverActs :
    modulate 0 (-16777220) (sidechain (2 ^ 31)) (-2 ^ 31) = -2 ^ 31 ∧
      modulate 0 16777220 (sidechain (2 ^ 31)) (2 ^ 31 - 1) = 2 ^ 31 - 1 ∧
      modulate 65536 0 (sidechain (2 ^ 31)) (-2 ^ 31) = -1503238554 := by
  decide +kernel

theorem witness_FrameAdvanceIgnoresTheChannels :
    tuned.init = true ∧ (run (.frame [5]) tuned).isSome = true ∧
      (run (.frame [1, 2, 3, 4, 5, 6, 7, 8]) tuned).isSome = true := by
  decide +kernel

theorem witness_ZeroMixIsTheIdentity :
    (bank 44100).fault = false ∧ (bank 44100).init = true ∧ (bank 44100).mix.advance.code = 0 ∧
      (run (.frame [0xF8A432EB, 5]) (bank 44100)).map (·.rsp) = some [0xF8A432EB, 5] := by
  decide +kernel

theorem witness_DuckingIsMonotone :
    sidechain 23488102 = 100663300 ∧ sidechain 23488103 = 100663296 ∧
      sidechain (2 ^ 31) = 100663296 ∧ sidechain 0 = 335544320 := by
  decide +kernel

theorem witness_GainGateIsExact :
    contribution 1031979 65 = 0 ∧ contribution 1031979 66 = 104 ∧ (4964 * 66 : Int).natAbs < 327680 ∧
      contribution 4964 66 = 0 ∧ contribution 4965 66 = 1 := by
  decide +kernel

theorem witness_UnlinkedChannelsAreIndependent :
    tuned.fault = false ∧ tuned.init = true ∧ tuned.sclink = false ∧
      (run (.frame [0]) tuned).map (·.rsp) = some [0x0001931E] := by
  decide +kernel

theorem witness_LinkHasNoEffectOnOneChannel :
    (run (.frame [23488102]) tuned).map (·.rsp) = some [0x00FB5A37] ∧
      (run (.frame [23488102]) { tuned with sclink := true }).map (·.rsp) = some [0x00FB5A37] := by
  decide +kernel

theorem witness_OutputIsCloseToTheRealLaw :
    modulate 65536 (∑ _i : Fin 10, contribution (sinq 0x40000000) 65536) (sidechain 0) 0 = 16777220 ∧
      modulate 0 (∑ _i : Fin 10, contribution (sinq 0) 0) (sidechain (2 ^ 31)) (-2 ^ 31) = -2 ^ 31 := by
  decide +kernel

/-! ### Witnesses: control commands -/

theorem witness_ControlWriteKeepsBitZero :
    tuned.fault = false ∧ (run (.wrreg 0x03 0xFFFFFFFF) tuned).map (·.ctrl) = some 1 ∧
      (run (.wrreg 0x03 0xFFFFFFFE) tuned).map (·.ctrl) = some 0 := by
  decide +kernel

theorem witness_WriteOfUnwritableRegisterFaults :
    tuned.fault = false ∧ ¬(0x10 ≤ (0x0F : BitVec 8).toNat ∧ (0x0F : BitVec 8).toNat ≤ 0x19) ∧
      ¬(0x10 ≤ (0x1A : BitVec 8).toNat ∧ (0x1A : BitVec 8).toNat ≤ 0x19) ∧
      (run (.wrreg 0x1A 3) tuned).map (fun t => (t.cause, t.faultCmd, t.faultArg)) =
        some (.badRegWrite, 0x1000001A, 3) := by
  decide +kernel

theorem witness_TargetWriteLeavesOtherRegisters :
    tuned.fault = false ∧ (run (.wrreg 0x09 1) tuned).map (fun t => t.value (.gainLeft 0)) = some 0 ∧
      (run (.wrreg 0x10 1) tuned).map (fun t => t.value (.gainLeft 0)) = some 441 := by
  decide +kernel

theorem witness_RepeatedWriteChangesNothing :
    (run (.wrreg 0x09 1) tuned).isSome = true ∧ (run (.wrreg 0x00 1) tuned).isSome = true ∧
      (run (.wrreg 0x03 1) broken).isSome = true := by
  decide +kernel

theorem witness_ReadOfReservedIndexFaults :
    tuned.fault = false ∧
      (∀ i : Fin 10, (Reg.freq i).index ≠ 0x6A ∧ (Reg.gainTarget i).index ≠ 0x0C) ∧
      regAt 0x0C = none ∧ regAt 0x6A = none ∧ regAt 0xFF = none := by
  decide +kernel

theorem witness_ReadAfterTargetWrite :
    tuned.fault = false ∧
      ((run (.wrreg 0x19 0xFFFFFFFF) tuned).bind fun t => (run (.rdreg 0x19) t).map (·.rsp)) =
        some [65536] := by
  decide +kernel

/-! ### Witnesses: faults, the step and reset -/

theorem witness_FaultsArePrecise :
    (Instr.frame [7]).wellFormed = true ∧ State.reset.fault = false ∧
      (run (.frame [7]) State.reset).map (fun t => (t.fault, t.faultArg)) = some (true, 7) ∧
      (run (.rdreg 0xFF) tuned).map (fun t => (t.fault, t.faultArg)) = some (true, 0) ∧
      (run (.wrreg 0xFF 9) tuned).map (fun t => (t.fault, t.faultArg)) = some (true, 9) ∧
      (run (.reinit 0) tuned).map (fun t => (t.fault, t.faultArg)) = some (true, 0) := by
  decide +kernel

theorem witness_FaultStateDiscardsCommands :
    broken.fault = true ∧ (Instr.reinit 8000).wellFormed = true ∧
      run (.reinit 8000) broken = some broken ∧ regAt 0x0C = none ∧
      run (.rdreg 0x0C) broken = some broken := by
  decide +kernel

theorem witness_FaultStateIsSticky :
    (given broken [0x30000000, 8000]).rstN = true ∧ (given broken [0x30000000, 8000]).fault = true ∧
      nextOf (step (given broken [0x30000000, 8000])) = some { broken with cp := 2 } ∧
      (State.driveReset broken false).fault = true ∧
      (nextOf (step (State.driveReset broken false))).map (·.fault) = some false := by
  decide +kernel

theorem witness_RejectedWordsFault :
    (given tuned [0x50000000, 1]).Accepting ∧
      (given tuned [0x50000000, 1]).stream = 0x50000000 :: ([] ++ [1]) ∧
      payloadLen 0x50000000 = 0 ∧ verdict 0x50000000 = .illegal ∧
      (given tuned [0x10000109, 7, 1]).stream = 0x10000109 :: ([7] ++ [1]) ∧
      payloadLen 0x10000109 = 1 ∧ verdict 0x10000109 = .reserved ∧ tuned.fault = false ∧
      (given broken [0x00000001]).Accepting ∧ verdict 0x00000001 = .reserved ∧ broken.fault = true := by
  decide +kernel

theorem witness_StepRunsTheDecodedCommand :
    (given tuned [0x30000000, 8000, 0]).Accepting ∧
      decode (given tuned [0x30000000, 8000, 0]).stream = .ok (.reinit 8000) [0] ∧
      (nextOf (step (given tuned [0x30000000, 8000, 0]))).map (fun t => (t.cp, t.cmdIn, t.rampLen)) =
        some (2, [0], 80) := by
  decide +kernel

theorem witness_ResetFromEveryState :
    (State.driveReset { tuned with rsp := [5], taken := [0x40000000] } false).rstN = false := by
  decide +kernel

end Sys2Proof.Tests
end

namespace Sys2Proof.Machine

/-! ### 00_scope.md R8: the rounding divisions in the rationals -/

theorem rdiv_eq_sign_mul_floor (n : Int) (d : Nat) :
    rdiv n d = n.sign * ⌊(2 * |(n : ℚ)| + d) / (2 * d)⌋ := by
  have hfloor := Rat.floor_natCast_div_natCast (2 * n.natAbs + d) (2 * d)
  push_cast [Nat.cast_natAbs] at hfloor
  simp [rdiv, hfloor]

theorem tdiv_eq_sign_mul_floor (n : Int) (d : Nat) : tdiv n d = n.sign * ⌊|(n : ℚ)| / d⌋ := by
  have hfloor := Rat.floor_natCast_div_natCast n.natAbs d
  push_cast [Nat.cast_natAbs] at hfloor
  simp [tdiv, hfloor]

/-- An integer's distance to a quotient, scaled by the divisor so that integer bounds apply to it. -/
theorem abs_intCast_sub_div (q n : Int) {d : Nat} (hd : 0 < d) :
    |(q : ℚ) - n / d| = |((d * q - n : Int) : ℚ)| / d := by
  have hd' : (d : ℚ) ≠ 0 := by exact_mod_cast hd.ne'
  have hscale : (q : ℚ) - n / d = ((d * q - n : Int) : ℚ) / d := by
    push_cast
    field_simp
  rw [hscale, abs_div, Nat.abs_cast]

theorem abs_rdiv_sub_div_le_half (n : Int) {d : Nat} (hd : 0 < d) :
    |(rdiv n d : ℚ) - n / d| ≤ 1 / 2 := by
  have hclose : |2 * (d * rdiv n d - n)| ≤ (d : Int) := abs_le.2 (rdiv_close n hd)
  rw [abs_mul, abs_two] at hclose
  rw [abs_intCast_sub_div _ _ hd, div_le_div_iff₀ (by exact_mod_cast hd) two_pos]
  have : 2 * |((d * rdiv n d - n : Int) : ℚ)| ≤ d := by exact_mod_cast hclose
  linarith

/-- A tie above zero goes up: adding half the divisor gives the next multiple of it exactly. -/
theorem rdiv_of_tie {n k : Int} {d : Nat} (hd : 0 < d) (hk : 0 ≤ k) (h : 2 * n = (2 * k + 1) * d) :
    rdiv n d = k + 1 := by
  have hn : 0 ≤ 2 * n := h ▸ by positivity
  have hsum : 2 * n + d = (k + 1) * (2 * d) := by rw [h]; ring
  rw [rdiv_of_nonneg (by omega), hsum, Int.mul_ediv_cancel _ (by omega)]

theorem rdiv_of_neg_tie {n k : Int} {d : Nat} (hd : 0 < d) (hk : 0 ≤ k)
    (h : 2 * n = -((2 * k + 1) * d)) : rdiv n d = -(k + 1) := by
  rw [← rdiv_of_tie (n := -n) hd hk (by omega), rdiv_neg, neg_neg]

theorem abs_tdiv (n : Int) (d : Nat) : |tdiv n d| = (n.natAbs / d : Nat) := by
  rcases eq_or_ne n 0 with rfl | hn
  · simp [tdiv]
  · rw [tdiv, abs_mul, Int.abs_sign_of_ne_zero hn, one_mul, Nat.abs_cast]

theorem abs_tdiv_le_abs_div (n : Int) (d : Nat) : |(tdiv n d : ℚ)| ≤ |(n : ℚ) / d| := by
  have hcast : |(tdiv n d : ℚ)| = (n.natAbs / d : Nat) := by
    rw [← Int.cast_abs, abs_tdiv, Int.cast_natCast]
  rw [hcast, abs_div, Nat.abs_cast, ← Int.cast_abs, ← Nat.cast_natAbs]
  exact Nat.cast_div_le

theorem abs_tdiv_sub_div_lt_one (n : Int) {d : Nat} (hd : 0 < d) : |(tdiv n d : ℚ) - n / d| < 1 := by
  have hclose : |d * tdiv n d - n| < (d : Int) := by
    rw [abs_lt]
    rcases le_total 0 n with hn | hn
    · have := tdiv_of_nonneg hn hd
      omega
    · have := tdiv_of_nonpos hn hd
      omega
  rw [abs_intCast_sub_div _ _ hd, div_lt_one (by exact_mod_cast hd)]
  exact_mod_cast hclose

/-- Settles O57: the formulas are the floors of casts, the bounds and ties come from the integer laws of `rdiv`
and `tdiv`, and the examples evaluate. -/
theorem roundingDivisions : Obligations.RoundingDivisions := by
  refine ⟨fun n d hd => ⟨rdiv_eq_sign_mul_floor n d, tdiv_eq_sign_mul_floor n d,
    abs_rdiv_sub_div_le_half n hd, fun k hk => ⟨rdiv_of_tie hd hk, rdiv_of_neg_tie hd hk⟩,
    abs_tdiv_le_abs_div n d, abs_tdiv_sub_div_lt_one n hd⟩, ?_⟩
  decide

end Sys2Proof.Machine

namespace Sys2Proof.Machine

/-! ### 10_state.md R52: the invariant through every step -/

/-- Settles O5: before a REINIT every value of the record is zero and every smoother rests on its target 0. -/
theorem resetHasInv : Obligations.ResetHasInv := by
  refine ⟨by decide, ⟨fun _ => ⟨rfl, rfl, rfl, fun i => ?_⟩, nofun⟩, Smoother.reset_ok 0, fun i => ?_, rfl⟩
  · simp [State.reset]
  · simpa [State.reset] using Smoother.reset_ok 0

/-- The invariant says nothing of the host's side, which is all a reset edge leaves of a state. -/
theorem State.resetEdge_inv (s : State) : s.resetEdge.Inv := resetHasInv

section
variable {s : State} (h : s.Inv)
include h

theorem State.acceptResponses_inv : s.acceptResponses.Inv := by
  rcases s.acceptResponses_cases with ⟨_, e⟩ | ⟨_, _, _, _, e⟩ <;> rw [e] <;> exact h

theorem State.tookCommand_inv (n : Nat) (rest : List Word) : (s.tookCommand n rest).Inv := by
  obtain ⟨hfault, hrate, hmix, hgain, _⟩ := h
  exact ⟨hfault, hrate, hmix, hgain, rfl⟩

theorem State.emit_inv (ws : List Word) : (s.emit ws).Inv := h

theorem State.raiseFault_inv {cause : Cause} (hc : cause ≠ .none) (cmd arg : Word) :
    (s.raiseFault cmd cause arg).Inv := by
  obtain ⟨_, hrate, hmix, hgain, htaken⟩ := h
  exact ⟨⟨iff_of_false hc nofun, nofun⟩, hrate, hmix, hgain, htaken⟩

theorem State.rejectWord_inv (why : Reject) (cmd : Word) (payload : List Word) :
    (s.rejectWord why cmd payload).Inv := by
  rcases s.rejectWord_cases why cmd payload with e | ⟨_, _, e⟩ | ⟨_, _, e⟩ <;> rw [e]
  · exact h
  · exact State.raiseFault_inv h (by decide) _ _
  · exact State.raiseFault_inv h (by decide) _ _

theorem State.writeReg_inv {data : Word} {r : Reg} {t : State} (hw : s.writeReg data r = some t) :
    t.Inv := by
  obtain ⟨hfault, hrate, hmix, hgain, htaken⟩ := h
  rcases State.writeReg_cases hw with ⟨_, rfl⟩ | ⟨_, rfl⟩ | ⟨i, _, rfl⟩
  · exact ⟨hfault, hrate, hmix, hgain, htaken⟩
  · exact ⟨hfault, hrate, Smoother.writeTarget_ok hmix data, hgain, htaken⟩
  · refine ⟨hfault, hrate, hmix, fun k => ?_, htaken⟩
    rcases eq_or_ne k i with rfl | hk
    · rw [Ten.get_set_self]
      exact Smoother.writeTarget_ok (hgain k) data
    · rw [Ten.get_set_of_ne _ _ hk]
      exact hgain k

theorem State.reinitAt_inv {fs : Word} (hmin : 8000 ≤ fs.toNat) (hmax : fs.toNat ≤ 384000) :
    (s.reinitAt fs).Inv := by
  obtain ⟨hfault, _, hmix, hgain, htaken⟩ := h
  have hramp : 0 ≤ rdiv fs.toNat 100 := by
    rw [rdiv_of_nonneg (by omega)]
    omega
  refine ⟨hfault, ⟨nofun, fun _ => ⟨hmin, hmax, Int.toNat_of_nonneg hramp, fun i => ?_⟩⟩,
    Smoother.snap_ok hmix.1 _, fun i => ?_, htaken⟩
  · rw [State.reinitAt_inc, Ten.get_ofFn, State.reinitAt_activeRate]
  · rw [State.reinitAt_gain, Ten.get_ofFn]
    exact Smoother.snap_ok (hgain i).1 _

theorem State.advanceFrame_inv (hi : s.init = true) : s.advanceFrame.Inv := by
  obtain ⟨hfault, ⟨_, hrate⟩, hmix, hgain, htaken⟩ := h
  refine ⟨hfault, ⟨fun hn => ?_, hrate⟩, Smoother.advance_ok hmix, fun i => ?_, htaken⟩
  · exact absurd (hi.symm.trans hn) nofun
  · rw [State.advanceFrame_gain, Ten.get_ofFn]
    exact Smoother.advance_ok (hgain i)

theorem exec_inv {i : Instr} {t : State} (he : exec i s = .next t) : t.Inv := by
  rcases exec_cases he with rfl | ⟨_, _, _, hc, rfl⟩ | ⟨_, _, _, _, _, _, hw⟩ | ⟨_, _, _, _, rfl⟩ |
    ⟨_, _, _, hmin, hmax, rfl⟩ | ⟨_, _, _, _, _, hi, rfl⟩
  · exact h
  · exact State.raiseFault_inv h hc _ _
  · exact State.writeReg_inv h hw
  · exact State.emit_inv h _
  · exact State.reinitAt_inv h hmin hmax
  · exact State.emit_inv (State.advanceFrame_inv h hi) _

theorem State.takeCommand_settled_inv {t : State} (he : s.takeCommand = .settled t) : t.Inv := by
  rcases s.takeCommand_cases with ⟨_, e⟩ | ⟨_, _, _, hl, e⟩ | ⟨_, _, _, _, _, _, _, e⟩ |
    ⟨_, _, _, _, _, _, e⟩ <;> rw [e] at he <;> cases he
  · exact h
  · obtain ⟨hfault, hrate, hmix, hgain, _⟩ := h
    exact ⟨hfault, hrate, hmix, hgain, decide_eq_true hl⟩
  · exact State.rejectWord_inv (State.tookCommand_inv h _ _) _ _ _

theorem State.takeCommand_run_inv {i : Instr} {t : State} (he : s.takeCommand = .run i t) : t.Inv := by
  rcases s.takeCommand_cases with ⟨_, e⟩ | ⟨_, _, _, _, e⟩ | ⟨_, _, _, _, _, _, _, e⟩ |
    ⟨_, _, _, _, _, _, e⟩ <;> rw [e] at he <;> cases he
  exact State.tookCommand_inv h _ _

theorem step_inv {t : State} (hs : step s = .next t) : t.Inv := by
  rcases step_cases s with ⟨_, e⟩ | ⟨_, _, _, e⟩ | ⟨_, _, e⟩ <;> rw [e] at hs
  · cases hs
    exact s.resetEdge_inv
  · cases hs
    exact h
  · cases hc : s.acceptResponses.takeCommand with
    | settled u =>
      rw [hc] at hs
      cases hs
      exact State.takeCommand_settled_inv (State.acceptResponses_inv h) hc
    | run i u =>
      rw [hc] at hs
      exact exec_inv (State.takeCommand_run_inv (State.acceptResponses_inv h) hc) hs

end

/-- Settles O4: a step is a reset edge, a wait or a command, and each operation it is made of keeps the
invariant. -/
theorem stepKeepsInv : Obligations.StepKeepsInv := fun _ _ h hs => step_inv h hs

/-! ### 10_state.md R27, R46: the register map -/

theorem bankReg_eq_some {base n : Nat} {reg : Fin 10 → Reg} {r : Reg} :
    bankReg base reg n = some r ↔ ∃ i : Fin 10, n = base + i ∧ r = reg i := by
  constructor
  · intro h
    obtain ⟨⟨hbase, hlt⟩, rfl⟩ := by simpa [bankReg] using h
    exact ⟨⟨n - base, hlt⟩, (Nat.add_sub_of_le hbase).symm, rfl⟩
  · rintro ⟨i, rfl, rfl⟩
    simp [bankReg]

theorem bankReg_eq_none {base n : Nat} {reg : Fin 10 → Reg} :
    bankReg base reg n = none ↔ n < base ∨ base + 10 ≤ n := by
  by_cases h : base ≤ n ∧ n - base < 10
  · exact iff_of_false (by simp [bankReg, h]) (by omega)
  · exact iff_of_true (dif_neg h) (by omega)

theorem regAt_eq_none {index : BitVec 8} : regAt index = none ↔
      (0x0C ≤ index.toNat ∧ index.toNat ≤ 0x0F) ∨ (0x1A ≤ index.toNat ∧ index.toNat ≤ 0x1F) ∨
      (0x2A ≤ index.toNat ∧ index.toNat ≤ 0x2F) ∨ (0x3A ≤ index.toNat ∧ index.toNat ≤ 0x3F) ∨
      (0x4A ≤ index.toNat ∧ index.toNat ≤ 0x4F) ∨ (0x5A ≤ index.toNat ∧ index.toNat ≤ 0x5F) ∨
      0x6A ≤ index.toNat := by
  unfold regAt
  split
  case h_13 =>
    simp only [Option.or_eq_none_iff, bankReg_eq_none]
    simp only [imp_false] at *
    omega
  all_goals exact iff_of_false nofun (by omega)

/-- The converse of `regAt_index`. -/
theorem index_of_regAt {index : BitVec 8} {r : Reg} (h : regAt index = some r) : r.index = index := by
  apply BitVec.eq_of_toNat_eq
  unfold regAt at h
  split at h
  case h_13 =>
    simp only [Option.or_eq_some_iff, bankReg_eq_some] at h
    rcases h with ⟨i, hn, rfl⟩ | ⟨_, ⟨i, hn, rfl⟩ | ⟨_, ⟨i, hn, rfl⟩ | ⟨_, ⟨i, hn, rfl⟩ |
      ⟨_, ⟨i, hn, rfl⟩ | ⟨_, ⟨i, hn, rfl⟩⟩⟩⟩⟩⟩ <;> rw [hn] <;> simp [Reg.index] <;> omega
  all_goals
    cases h
    exact Eq.symm ‹_›

/-- Settles O1: `regAt` and `Reg.index` are inverse to each other, and the banks and the twelve single
indices leave exactly the reserved ranges out. -/
theorem registerMapNamesEveryIndex : Obligations.RegisterMapNamesEveryIndex :=
  ⟨fun _ r => ⟨index_of_regAt, fun h => h ▸ regAt_index r⟩, fun _ => regAt_eq_none⟩

/-! ### 10_state.md R30: STATUS -/

theorem State.ramping_iff (s : State) :
    s.ramping = true ↔ 0 < s.mix.left ∨ ∃ i : Fin 10, 0 < (s.gain.get i).left := by
  simp [State.ramping, Ten.toList_eq]

/-- STATUS is a word of three flags and the cause code, so its fields are checked over their values. -/
theorem State.status_fields (s : State) :
    s.status.getLsbD 0 = s.init ∧ s.status.getLsbD 1 = s.fault ∧ s.status.getLsbD 2 = s.ramping ∧
      (s.status.extractLsb' 8 4).toNat = s.cause.code ∧
      s.status.extractLsb' 3 5 = 0 ∧ s.status.extractLsb' 12 20 = 0 := by
  unfold State.status
  generalize s.init = init, s.fault = fault, s.ramping = ramping, s.cause = cause
  revert init fault ramping
  cases cause <;> decide

/-- Settles O2: the fields of STATUS are its flags and cause, and RAMPING is that some smoother has steps
left. -/
theorem statusBitsHoldTheFlags : Obligations.StatusBitsHoldTheFlags := by
  intro s
  obtain ⟨hinit, hfault, hramping, hcause, hlow, hhigh⟩ := s.status_fields
  refine ⟨hinit, hfault, ?_, ?_, hlow, hhigh⟩
  · rw [hramping, s.ramping_iff]
  · rw [hcause]
    cases s.cause <;> rfl

/-! ### 10_state.md R32 to R34, R43, R44, R47, R211: the state each command can write -/

/-- Settles O6: by everything a command can do; a register write names its register, and that register's
index is the command's. -/
theorem onlyNamedCommandsWriteEachRegister : Obligations.OnlyNamedCommandsWriteEachRegister := by
  intro i s t he
  rcases exec_cases he with rfl | ⟨_, _, _, _, rfl⟩ | ⟨_, data, _, rfl, _, hr, hw⟩ |
    ⟨_, _, rfl, _, rfl⟩ | ⟨_, rfl, _, _, _, rfl⟩ | ⟨_, rfl, _, _, _, _, rfl⟩
  case inr.inr.inl =>
    obtain rfl := index_of_regAt hr
    rcases State.writeReg_cases hw with ⟨rfl, rfl⟩ | ⟨rfl, rfl⟩ | ⟨k, rfl, rfl⟩
    · simp [Reg.index]
    · simp [Reg.index]
    · refine ⟨by simp, by simp, by simp, by simp, fun j hj => ?_, by simp, by simp⟩
      obtain rfl : j = k := by
        by_contra hne
        simp [Ten.get_set_of_ne _ _ hne] at hj
      exact ⟨data, rfl⟩
  all_goals simp

/-! ### 43_control_commands.md R183: CTRL -/

theorem execWrreg_of_writeReg {reg : BitVec 8} {data : Word} {r : Reg} {s t : State}
    (hf : s.fault = false) (hr : regAt reg = some r) (hw : s.writeReg data r = some t) :
    execWrreg reg data s = .next t := by
  simp [execWrreg, unlessFaulted_of_running hf, hr, hw]

theorem execRdreg_of_regAt {reg : BitVec 8} {r : Reg} (hr : regAt reg = some r) (s : State) :
    execRdreg reg s = .next (s.emit [s.value r]) := by
  simp [execRdreg, hr]

theorem ofNat_toNat_getLsbD_zero (data : Word) :
    BitVec.ofNat 32 (data.getLsbD 0).toNat = data &&& 1 := by
  refine Eq.trans ?_ BitVec.and_one_eq_setWidth_ofBool_getLsbD.symm
  cases data.getLsbD 0 <;> rfl

/-- Settles O43: both halves are the commands' own equations at the register of 0x03, CTRL. -/
theorem controlWriteKeepsBitZero : Obligations.ControlWriteKeepsBitZero := by
  intro s data hf
  refine ⟨execWrreg_of_writeReg hf (regAt_index .ctrl) rfl, ?_⟩
  rw [← ofNat_toNat_getLsbD_zero]
  exact execRdreg_of_regAt (regAt_index .ctrl) _

end Sys2Proof.Machine

namespace Sys2Proof

/-! ### 20_memory.md R64: the byte order of a byte-serial transport -/

/-- Each word is its four bytes with byte 0 lowest, and the words after it are read on their own. -/
theorem wordsOfBytes_bytesOfWord_append (w : Word) (bs : List Byte) :
    wordsOfBytes (bytesOfWord w ++ bs) = w :: wordsOfBytes bs := by
  have hw : w.extractLsb' 24 8 ++ w.extractLsb' 16 8 ++ w.extractLsb' 8 8 ++ w.extractLsb' 0 8 = w := by
    rw [BitVec.extractLsb'_append_extractLsb'_eq_extractLsb' (show 24 = 16 + 8 from rfl),
      BitVec.extractLsb'_append_extractLsb'_eq_extractLsb' (show 16 = 8 + 8 from rfl),
      BitVec.extractLsb'_append_extractLsb'_eq_extractLsb' (show 8 = 0 + 8 from rfl)]
    exact BitVec.extractLsb'_eq_self
  exact congrArg (· :: wordsOfBytes bs) hw

theorem wordsOfBytes_flatMap_bytesOfWord (ws : List Word) :
    wordsOfBytes (ws.flatMap bytesOfWord) = ws := by
  induction ws with
  | nil => rfl
  | cons w ws ih => rw [List.flatMap_cons, wordsOfBytes_bytesOfWord_append, ih]

theorem getLsbD_of_bytesOfWord {w : Word} {k : Fin 4} {b : Byte} (h : (bytesOfWord w)[k.val]? = some b)
    (j : Fin 8) : b.getLsbD j.val = w.getLsbD (8 * k.val + j.val) := by
  obtain rfl : w.extractLsb' (8 * k.val) 8 = b := by
    fin_cases k <;> exact Option.some.inj h
  simp

/-- A command word announces as many payload words as its command has (30_encoding.md R84). -/
theorem payloadLen_commandWord {i : Instr} (h : i.wellFormed = true) :
    payloadLen (commandWord i) = (payloadOf i).length := by
  cases i with
  | nop => exact (Laws.EncodedLength.nop h).symm
  | wrreg reg data => exact (Laws.EncodedLength.wrreg reg data h).symm
  | rdreg reg => exact (Laws.EncodedLength.rdreg reg h).symm
  | reinit fs => exact (Laws.EncodedLength.reinit fs h).symm
  | frame xs => exact (Laws.EncodedLength.frame xs h).symm

theorem withPayload_verdictOf (i : Instr) (rest : List Word) :
    withPayload (verdictOf i) (payloadOf i) rest = .ok i rest := by
  cases i <;> rfl

theorem decode_encode_append {i : Instr} (h : i.wellFormed = true) (rest : List Word) :
    decode (encode i ++ rest) = .ok i rest := by
  simp [encode, decode, payloadLen_commandWord h, verdict_commandWord h, withPayload_verdictOf]

/-- Settles O7: a word is put together from its own bytes, so the bytes of a command are the words of its
encoding, which decode to it. -/
theorem byteSerialTransportIsLittleEndian : Obligations.ByteSerialTransportIsLittleEndian := by
  refine ⟨wordsOfBytes_flatMap_bytesOfWord, fun _ _ _ h => getLsbD_of_bytesOfWord h, fun i hi => ?_⟩
  rw [decodeBytes, wordsOfBytes_flatMap_bytesOfWord, ← (encode i).append_nil]
  exact decode_encode_append hi []

/-! ### Collections of ten -/

theorem Ten.set_set {α : Type} (t : Ten α) (i : Fin 10) (a b : α) :
    (t.set i a).set i b = t.set i b := by
  refine Ten.ext_get fun j => ?_
  simp only [Ten.get_set]
  split <;> rfl

end Sys2Proof

namespace Sys2Proof.Machine

/-! ### 20_memory.md R61, R63, R69, R75: what a step does to the two streams -/

theorem State.takeCommand_of_stream_eq_nil {s : State} (h : s.stream = []) :
    s.takeCommand = .settled s := by
  simp [State.takeCommand, h]

theorem State.takeCommand_of_incomplete {s : State} {cmd : Word} {rest : List Word}
    (h : s.stream = cmd :: rest) (hl : rest.length < payloadLen cmd) :
    s.takeCommand = .settled { s with taken := cmd :: rest, cmdIn := [] } := by
  simp [State.takeCommand, h, hl]

theorem State.takeCommand_run_wellFormed {s u : State} {i : Instr} (h : s.takeCommand = .run i u) :
    i.wellFormed = true := by
  rcases s.takeCommand_cases with ⟨_, e⟩ | ⟨_, _, _, _, e⟩ | ⟨_, _, _, _, _, _, hw, e⟩ |
    ⟨_, _, _, _, _, _, e⟩ <;> rw [e] at h <;> cases h
  exact hw

@[simp] theorem State.tookCommand_stream (s : State) (n : Nat) (rest : List Word) :
    (s.tookCommand n rest).stream = rest := rfl

/-- The state an event leaves, or runs its command in. -/
def Event.state : Event → State
  | .settled t => t
  | .run _ t => t

/-- Taking a command, whole or in part, leaves the responses alone and takes words from the front of the
stream, which `cp` counts. -/
theorem State.takeCommand_streams (s : State) :
    s.takeCommand.state.rsp = s.rsp ∧ s.takeCommand.state.received = s.received ∧
      ∃ ws, s.stream = ws ++ s.takeCommand.state.stream ∧
        s.takeCommand.state.cp = s.cp + ws.length := by
  rcases s.takeCommand_cases with ⟨_, e⟩ | ⟨cmd, rest, hs, _, e⟩ | ⟨cmd, rest, i, hs, hl, _, _, e⟩ |
    ⟨cmd, rest, why, hs, hl, _, e⟩ <;> rw [e, Event.state]
  · exact ⟨rfl, rfl, [], rfl, rfl⟩
  · refine ⟨rfl, rfl, [], ?_, rfl⟩
    rw [hs]
    exact (List.append_nil _).symm
  · refine ⟨rfl, rfl, cmd :: rest.take (payloadLen cmd), ?_, ?_⟩
    · simp [hs]
    · simp [hl, Nat.add_comm]
  · obtain ⟨hrsp, hcp, htaken, hcmdIn, hreceived⟩ := State.rejectWord_streams
      (s.tookCommand (1 + payloadLen cmd) (rest.drop (payloadLen cmd))) why cmd
      (rest.take (payloadLen cmd))
    refine ⟨hrsp, hreceived, cmd :: rest.take (payloadLen cmd), ?_, ?_⟩
    · rw [hs, State.stream, htaken, hcmdIn]
      simp
    · simp [hl, hcp, Nat.add_comm]

theorem State.cmdReady_iff (s : State) : s.cmdReady = true ↔ s.Accepting := by
  simp [State.cmdReady, State.Accepting]

/-- Everything a step that answers a next state can have done: a reset edge, a wait for the host, or a
command taken and, where one is whole, run. -/
theorem step_next_cases {s t : State} (h : step s = .next t) :
    (s.rstN = false ∧ t = s.resetEdge) ∨
      (s.rstN = true ∧ s.rspReady = false ∧ t = s) ∨
      (s.Accepting ∧ (s.acceptResponses.takeCommand = .settled t ∨
        ∃ i u, s.acceptResponses.takeCommand = .run i u ∧ exec i u = .next t)) := by
  rcases step_cases s with ⟨hr, e⟩ | ⟨hr, hready, _, e⟩ | ⟨hr, hrsp, e⟩ <;> rw [e] at h
  · cases h
    exact .inl ⟨hr, rfl⟩
  · cases h
    exact .inr (.inl ⟨hr, hready, rfl⟩)
  · have hacc : s.Accepting := ⟨hr, by simpa [hr, or_iff_not_imp_left] using hrsp⟩
    refine .inr (.inr ⟨hacc, ?_⟩)
    cases hc : s.acceptResponses.takeCommand with
    | settled u =>
      rw [hc] at h
      cases h
      exact .inl rfl
    | run i u =>
      rw [hc] at h
      exact .inr ⟨i, u, rfl, h⟩

/-- With `rst_n` high a step moves responses to the host as the handshake does, may add responses behind
those still waiting, and takes words from the front of the command stream, which `cp` counts. -/
theorem step_streams {s t : State} (hr : s.rstN = true) (h : step s = .next t) :
    t.received = s.acceptResponses.received ∧ (∃ ws, t.rsp = s.acceptResponses.rsp ++ ws) ∧
      ∃ ws, s.stream = ws ++ t.stream ∧ t.cp = s.cp + ws.length := by
  have htake := s.acceptResponses.takeCommand_streams
  rw [State.acceptResponses_stream, State.acceptResponses_cp] at htake
  rcases step_next_cases h with ⟨hr', _⟩ | ⟨_, hready, rfl⟩ | ⟨_, hc | ⟨i, u, hc, he⟩⟩
  · exact absurd (hr.symm.trans hr') nofun
  · exact ⟨by simp [hready], ⟨[], by simp [hready]⟩, [], rfl, rfl⟩
  · rw [hc] at htake
    obtain ⟨hrsp, hreceived, hws⟩ := htake
    exact ⟨hreceived, ⟨[], hrsp.trans (List.append_nil _).symm⟩, hws⟩
  · rw [hc] at htake
    obtain ⟨hrsp, hreceived, hws⟩ := htake
    obtain ⟨hcp, htaken, hcmdIn, _, _, hreceived', hrsp'⟩ := exec_streams he
    have hstream : t.stream = u.stream := by rw [State.stream, htaken, hcmdIn, State.stream]
    rw [hstream, hcp, hreceived', ← hrsp]
    exact ⟨hreceived, hrsp', hws⟩

/-- Settles O8: accepting moves waiting words to the host's, and a command adds its responses behind
them. -/
theorem responsesAreNeverLostOrReordered : Obligations.ResponsesAreNeverLostOrReordered := by
  intro s t hr h
  obtain ⟨hreceived, ⟨ws, hrsp⟩, _⟩ := step_streams hr h
  constructor
  · refine ⟨ws, ?_⟩
    rw [← s.acceptResponses_responses, State.responses, hreceived, hrsp, ← List.append_assoc,
      State.responses]
  · rw [hreceived, State.acceptResponses_received]
    split
    · exact ⟨s.rsp, rfl⟩
    · exact ⟨[], s.received.append_nil.symm⟩

/-- Settles O9: what `step_streams` says of the words taken. -/
theorem commandStreamIsTakenInOrder : Obligations.CommandStreamIsTakenInOrder :=
  fun _ _ hr h => (step_streams hr h).2.2

/-- Settles O10: a step of an accepting state takes what the stream holds after the responses have
gone. -/
theorem incompleteCommandWaits : Obligations.IncompleteCommandWaits := by
  intro s ha
  rw [← s.acceptResponses_stream, step_of_accepting ha]
  refine ⟨fun hs => ?_, fun cmd rest hs hl => ?_⟩
  · rw [State.takeCommand_of_stream_eq_nil hs]
  · rw [State.takeCommand_of_incomplete hs hl]

/-- Settles O55: a decoded command is well formed, and every well-formed command answers a next state. -/
theorem stepNeverStops : Obligations.StepNeverStops := by
  intro s
  rcases step_cases s with ⟨_, e⟩ | ⟨_, _, _, e⟩ | ⟨_, _, e⟩
  · exact ⟨_, e⟩
  · exact ⟨_, e⟩
  · rw [e]
    cases hc : s.acceptResponses.takeCommand with
    | settled t => exact ⟨t, rfl⟩
    | run i u => exact exec_of_wellFormed (State.takeCommand_run_wellFormed hc) u

theorem State.rspTransfer_iff (s : State) :
    s.rspTransfer = true ↔ s.rspValid = true ∧ s.rspReady = true := Bool.and_eq_true_iff

theorem State.rspTransfer_eq_false_iff (s : State) :
    s.rspTransfer = false ↔ s.rspValid = false ∨ s.rspReady = false := Bool.and_eq_false_iff

theorem step_received {s t : State} (h : step s = .next t) :
    t.received = s.acceptResponses.received := by
  cases hr : s.rstN
  · rcases step_next_cases h with ⟨_, rfl⟩ | ⟨hr', _⟩ | ⟨⟨hr', _⟩, _⟩
    · simp [hr]
    · exact absurd (hr.symm.trans hr') nofun
    · exact absurd (hr.symm.trans hr') nofun
  · exact (step_streams hr h).1

/-- Where `cmd_ready` is 0 a step takes no word offered: it is a reset edge or a wait. -/
theorem step_cmdIn_of_not_cmdReady {s t : State} (h : step s = .next t) (hc : s.cmdReady = false) :
    t.cmdIn = s.cmdIn := by
  rcases step_next_cases h with ⟨_, rfl⟩ | ⟨_, _, rfl⟩ | ⟨ha, _⟩
  · rfl
  · rfl
  · exact absurd (hc.symm.trans (s.cmdReady_iff.2 ha)) nofun

/-- Settles O59: a handshake of both pins is `rspTransfer`, which is what lets words move, one at an edge
and all in a step. -/
theorem transfersNeedValidAndReady : Obligations.TransfersNeedValidAndReady := by
  intro s
  refine ⟨fun w rest hrsp hv hready => ?_, fun hn => ?_,
    fun t ht => ⟨fun hn => ?_, fun hv hready => ?_, step_cmdIn_of_not_cmdReady ht⟩⟩
  · simp [State.acceptOne, s.rspTransfer_iff.2 ⟨hv, hready⟩, hrsp]
  · simp [State.acceptOne, s.rspTransfer_eq_false_iff.2 hn]
  · simp [step_received ht, State.acceptResponses, s.rspTransfer_eq_false_iff.2 hn]
  · rw [step_received ht, State.acceptResponses, if_pos (s.rspTransfer_iff.2 ⟨hv, hready⟩)]

/-! ### 20_memory.md R66, 41_parameter_smoothing.md R132: a repeated write -/

theorem Smoother.writeTarget_target (n : Nat) (data : Word) (s : Smoother) :
    (s.writeTarget n data).target = min data.toNat 65536 := by
  rcases s.writeTarget_cases n data with ⟨ht, e⟩ | ⟨_, _, e⟩ | ⟨_, _, e⟩ <;> rw [e]
  exact ht.symm

/-- A target that a smoother has is no new target, so writing it does not begin a ramp. -/
theorem Smoother.writeTarget_of_target_eq {n : Nat} {data : Word} {s : Smoother}
    (h : s.target = min data.toNat 65536) : s.writeTarget n data = s :=
  if_pos h.symm

theorem Smoother.writeTarget_idem (n : Nat) (data : Word) (s : Smoother) :
    (s.writeTarget n data).writeTarget n data = s.writeTarget n data :=
  Smoother.writeTarget_of_target_eq (s.writeTarget_target n data)

theorem State.writeReg_fault {s t : State} {data : Word} {r : Reg} (h : s.writeReg data r = some t) :
    t.fault = s.fault := by
  rcases State.writeReg_cases h with ⟨_, rfl⟩ | ⟨_, rfl⟩ | ⟨_, _, rfl⟩ <;> rfl

theorem State.writeReg_idem {s t : State} {data : Word} {r : Reg} (h : s.writeReg data r = some t) :
    t.writeReg data r = some t := by
  rcases State.writeReg_cases h with ⟨rfl, rfl⟩ | ⟨rfl, rfl⟩ | ⟨i, rfl, rfl⟩
  · rfl
  · simp only [State.writeReg, Smoother.writeTarget_idem]
  · simp only [State.writeReg, Ten.get_set_self, Ten.set_set, Smoother.writeTarget_idem]

theorem execWrreg_of_fault {s : State} (h : s.fault = true) (reg : BitVec 8) (data : Word) :
    execWrreg reg data s = .next s := unlessFaulted_of_fault h _

/-- Settles O46: a write of a register finds its own value there, and a fault state discards the
command. -/
theorem repeatedWriteChangesNothing : Obligations.RepeatedWriteChangesNothing := by
  intro s t reg data h
  rw [exec] at h ⊢
  rcases execWrreg_cases reg data s with ⟨_, e⟩ | ⟨hf, r, u, hr, hw, e⟩ | ⟨_, _, e⟩ <;>
    rw [e] at h <;> cases h
  · exact e
  · exact execWrreg_of_writeReg ((State.writeReg_fault hw).trans hf) hr (State.writeReg_idem hw)
  · exact execWrreg_of_fault rfl reg data

end Sys2Proof.Machine

namespace Sys2Proof

/-! ### 30_encoding.md R80 to R87: the fields of a command word and its verdict -/

/-- Two words are equal exactly when they agree in the opcode, in the low `k` bits and in the `n` bits
between. -/
theorem word_eq_iff_fields {c d : Word} {k n : Nat} (hk : k + n = 28) :
    c = d ↔ opField c = opField d ∧ c.extractLsb' k n = d.extractLsb' k n ∧
      c.extractLsb' 0 k = d.extractLsb' 0 k := by
  refine ⟨by rintro rfl; exact ⟨rfl, rfl, rfl⟩, fun ⟨hop, hmid, hlow⟩ => ?_⟩
  refine BitVec.eq_of_getLsbD_eq fun j hj => ?_
  by_cases h1 : j < k
  · simpa [h1] using congrArg (·.getLsbD j) hlow
  by_cases h2 : j < 28
  · simpa [show j - k < n by omega, show k + (j - k) = j by omega] using
      congrArg (·.getLsbD (j - k)) hmid
  · simpa [opField, show j - 28 < 4 by omega, show 28 + (j - 28) = j by omega] using
      congrArg (·.getLsbD (j - 28)) hop

/-- A mask of all bits from `k` up leaves a field above bit `k` as it is. -/
theorem extractLsb'_and_mask (cmd : Word) {k a m : Nat} (hk : k ≤ a) (hm : a + m ≤ 32) :
    (cmd &&& BitVec.allOnes 32 <<< k).extractLsb' a m = cmd.extractLsb' a m := by
  ext j hj
  have hbit : a + j < 32 ∧ ¬ a + j < k ∧ a + j - k < 32 := by omega
  simp [hbit, -BitVec.reduceAllOnes]

/-- A match under a mask of all bits from `k` up fixes the opcode and zeros down to bit `k`. -/
theorem and_mask_eq_iff {cmd : Word} {k n : Nat} (hk : k + n = 28) (op : BitVec 4) :
    cmd &&& BitVec.allOnes 32 <<< k = op.setWidth 32 <<< 28 ↔
      opField cmd = op ∧ cmd.extractLsb' k n = 0#n := by
  have hop : opField (op.setWidth 32 <<< 28) = op := by
    ext j hj
    have hbit : 28 + j < 32 ∧ j < 32 := by omega
    simp [opField, hbit, hj]
  have hmid : (op.setWidth 32 <<< 28).extractLsb' k n = 0#n := by
    ext j hj
    have hbit : k + j < 28 := by omega
    simp [hbit]
  have hlow : (cmd &&& BitVec.allOnes 32 <<< k).extractLsb' 0 k =
      (op.setWidth 32 <<< 28).extractLsb' 0 k := by
    ext j hj
    have hbit : j < 28 := by omega
    simp [hbit, hj]
  rw [word_eq_iff_fields hk, hop, hmid, and_iff_left hlow, opField,
    extractLsb'_and_mask cmd (by omega) le_rfl, extractLsb'_and_mask cmd le_rfl (by omega), opField]

/-- What a verdict says of the word's opcode, must-be-zero bits and operand; nothing where it is
reserved. -/
def Verdict.Fits (cmd : Word) : Verdict → Prop
  | .illegal => 4#4 < opField cmd
  | .reserved => True
  | .nop => opField cmd = 0#4 ∧ cmd.extractLsb' 0 28 = 0#28
  | .wrreg reg => (opField cmd = 1#4 ∧ cmd.extractLsb' 8 20 = 0#20) ∧ reg = cmd.extractLsb' 0 8
  | .rdreg reg => (opField cmd = 2#4 ∧ cmd.extractLsb' 8 20 = 0#20) ∧ reg = cmd.extractLsb' 0 8
  | .reinit => opField cmd = 3#4 ∧ cmd.extractLsb' 0 28 = 0#28
  | .frame c =>
    (opField cmd = 4#4 ∧ cmd.extractLsb' 3 25 = 0#25) ∧ c = (cmd.extractLsb' 0 3).toNat + 1

theorem verdict_fits (cmd : Word) : (verdict cmd).Fits cmd := by
  have hop : opField cmd = 0#4 ∨ opField cmd = 1#4 ∨ opField cmd = 2#4 ∨ opField cmd = 3#4 ∨
      opField cmd = 4#4 ∨ 4#4 < opField cmd := by
    generalize opField cmd = op
    revert op
    decide
  rcases hop with h | h | h | h | h | h
  · by_cases hz : cmd.extractLsb' 0 28 = 0#28 <;> simp [verdict, Verdict.Fits, h, hz]
  · by_cases hz : cmd.extractLsb' 8 20 = 0#20 <;> simp [verdict, Verdict.Fits, h, hz]
  · by_cases hz : cmd.extractLsb' 8 20 = 0#20 <;> simp [verdict, Verdict.Fits, h, hz]
  · by_cases hz : cmd.extractLsb' 0 28 = 0#28 <;> simp [verdict, Verdict.Fits, h, hz]
  · by_cases hz : cmd.extractLsb' 3 25 = 0#25 <;> simp [verdict, Verdict.Fits, h, hz]
  · simp [verdict, Verdict.Fits, h]

theorem verdict_eq_iff_fits {cmd : Word} {v : Verdict} (hv : v ≠ .reserved) :
    verdict cmd = v ↔ v.Fits cmd := by
  refine ⟨by rintro rfl; exact verdict_fits cmd, fun h => ?_⟩
  cases v with
  | reserved => exact absurd rfl hv
  | illegal => exact if_pos h
  | nop | reinit => obtain ⟨hop, hz⟩ := h; simp [verdict, hop, hz]
  | wrreg _ | rdreg _ | frame _ => obtain ⟨⟨hop, hz⟩, rfl⟩ := h; simp [verdict, hop, hz]

/-- No two words have one verdict that is a command's: every bit of the word is fixed or the
operand's. -/
theorem Verdict.Fits.word_unique {c d : Word} {v : Verdict} (hc : v.Fits c) (hd : v.Fits d)
    (hi : v ≠ .illegal) (hr : v ≠ .reserved) : c = d := by
  cases v with
  | illegal => exact absurd rfl hi
  | reserved => exact absurd rfl hr
  | nop | reinit =>
    exact (word_eq_iff_fields (k := 0) rfl).2
      ⟨hc.1.trans hd.1.symm, hc.2.trans hd.2.symm, Subsingleton.elim _ _⟩
  | wrreg _ | rdreg _ =>
    obtain ⟨⟨hcop, hcz⟩, hcr⟩ := hc
    obtain ⟨⟨hdop, hdz⟩, hdr⟩ := hd
    exact (word_eq_iff_fields rfl).2
      ⟨hcop.trans hdop.symm, hcz.trans hdz.symm, hcr.symm.trans hdr⟩
  | frame _ =>
    obtain ⟨⟨hcop, hcz⟩, hcr⟩ := hc
    obtain ⟨⟨hdop, hdz⟩, hdr⟩ := hd
    exact (word_eq_iff_fields rfl).2
      ⟨hcop.trans hdop.symm, hcz.trans hdz.symm, BitVec.eq_of_toNat_eq (by omega)⟩

/-- Settles O16: a match under its mask says of a word what the verdict's fields say. -/
theorem opcodeMapMatchesItsMasks : Obligations.OpcodeMapMatchesItsMasks := by
  intro cmd
  refine ⟨?_, fun reg => ?_, fun reg => ?_, ?_, fun c => ?_, ?_⟩ <;>
    rw [verdict_eq_iff_fits (by simp), Verdict.Fits]
  · exact (and_mask_eq_iff rfl 0#4).symm
  · exact and_congr_left' (and_mask_eq_iff rfl 1#4).symm
  · exact and_congr_left' (and_mask_eq_iff rfl 2#4).symm
  · exact (and_mask_eq_iff rfl 3#4).symm
  · exact and_congr_left' (and_mask_eq_iff rfl 4#4).symm
  · exact BitVec.lt_def

/-! ### 30_encoding.md R80, R84, R86: whole commands -/

/-- Settles O14: what is announced, judged and put together again is the command. -/
theorem decodeOfEncode : Obligations.DecodeOfEncode := fun _ rest h => decode_encode_append h rest

/-- A well-formed command's verdict belongs to its command word alone. -/
theorem eq_commandWord_of_verdict {cmd : Word} {i : Instr} (hw : i.wellFormed = true)
    (h : verdict cmd = verdictOf i) : cmd = commandWord i := by
  have hcmd := verdict_fits cmd
  have hword := verdict_fits (commandWord i)
  rw [h] at hcmd
  rw [verdict_commandWord hw] at hword
  exact hcmd.word_unique hword (by cases i <;> nofun) (by cases i <;> nofun)

/-- A word that is not rejected, with the payload it announces, is a well-formed command's
encoding. -/
theorem exists_encode_eq {cmd : Word} {payload : List Word} (hl : payload.length = payloadLen cmd)
    (hi : verdict cmd ≠ .illegal) (hr : verdict cmd ≠ .reserved) :
    ∃ i : Instr, i.wellFormed = true ∧ encode i = cmd :: payload := by
  cases hv : verdict cmd with
  | illegal => exact absurd hv hi
  | reserved => exact absurd hv hr
  | nop =>
    obtain rfl := eq_commandWord_of_verdict (i := .nop) rfl hv
    obtain rfl := List.eq_nil_of_length_eq_zero hl
    exact ⟨.nop, rfl, rfl⟩
  | rdreg reg =>
    obtain rfl := eq_commandWord_of_verdict (i := .rdreg reg) rfl hv
    obtain rfl := List.eq_nil_of_length_eq_zero (hl.trans (payloadLen_commandWord rfl))
    exact ⟨.rdreg reg, rfl, rfl⟩
  | wrreg reg =>
    obtain ⟨data, rfl⟩ := List.length_eq_one_iff.1 (hl.trans (payloadLen_of_verdict.1 reg hv))
    obtain rfl := eq_commandWord_of_verdict (i := .wrreg reg data) rfl hv
    exact ⟨.wrreg reg data, rfl, rfl⟩
  | reinit =>
    obtain ⟨fs, rfl⟩ := List.length_eq_one_iff.1 (hl.trans (payloadLen_of_verdict.2 hv))
    obtain rfl := eq_commandWord_of_verdict (i := .reinit fs) rfl hv
    exact ⟨.reinit fs, rfl, rfl⟩
  | frame c =>
    obtain ⟨h1, h8, hc⟩ := verdict_frame hv
    obtain rfl := hl.trans hc
    have hw := (Instr.wellFormed_frame payload).2 ⟨h1, h8⟩
    obtain rfl := eq_commandWord_of_verdict hw hv
    exact ⟨.frame payload, hw, rfl⟩

theorem decode_of_incomplete {cmd : Word} {rest : List Word} (h : rest.length < payloadLen cmd) :
    decode (cmd :: rest) = .reject .incomplete := if_pos h

/-- With its payload there, a word is decoded by its verdict. -/
theorem decode_cons_append {cmd : Word} {payload : List Word} (h : payload.length = payloadLen cmd)
    (rest : List Word) :
    decode (cmd :: (payload ++ rest)) = withPayload (verdict cmd) payload rest := by
  simp [decode, ← h]

/-- Settles O15: words that decode are some command's encoding and a rest, and decoding those gives
nothing but that command and that rest. -/
theorem encodeOfDecode : Obligations.EncodeOfDecode := by
  intro i ws rest h
  cases ws with
  | nil => cases h
  | cons cmd tail =>
    by_cases hl : tail.length < payloadLen cmd
    · rw [decode_of_incomplete hl] at h
      cases h
    obtain ⟨payload, rest', rfl, hp⟩ : ∃ payload rest', tail = payload ++ rest' ∧
        payload.length = payloadLen cmd :=
      ⟨_, _, (List.take_append_drop (payloadLen cmd) tail).symm,
        List.length_take_of_le (Nat.le_of_not_lt hl)⟩
    rw [decode_cons_append hp] at h
    obtain ⟨j, hw, he⟩ := exists_encode_eq hp (fun hv => by rw [hv] at h; cases h)
      (fun hv => by rw [hv] at h; cases h)
    rw [← decode_cons_append hp, ← List.cons_append, ← he, decode_encode_append hw] at h
    cases h
    exact ⟨hw, by rw [he, List.cons_append]⟩

/-! ### 30_encoding.md R84, R87: payload lengths -/

theorem payloadLen_of_illegal {cmd : Word} (h : verdict cmd = .illegal) : payloadLen cmd = 0 := by
  have hop : 4#4 < opField cmd := (verdict_eq_iff_fits (by simp)).1 h
  have hne : ∀ op : BitVec 4, 4#4 < op → op ≠ 1#4 ∧ op ≠ 3#4 ∧ op ≠ 4#4 := by decide
  simp [payloadLen, hne _ hop]

/-- Settles O17: the payload length is a function of the two fields by definition. -/
theorem payloadLengthReadsTwoFields : Obligations.PayloadLengthReadsTwoFields := by
  refine ⟨fun _ => rfl, fun c d hop hch => ?_⟩
  rw [payloadLen, payloadLen, opField, opField, hop, hch]

end Sys2Proof

namespace Sys2Proof.Machine

/-! ### 30_encoding.md R90, R91: the assembly language -/

/-- Settles O19: setgain's ten indices and silence's eight channel counts are checked one by one. -/
theorem pseudoInstructionsAreOneCommand : Obligations.PseudoInstructionsAreOneCommand := by
  refine ⟨fun _ => rfl, fun k v => ?_, fun b => ?_, rfl, fun c h1 h8 => ?_⟩
  · fin_cases k <;> rfl
  · cases b <;> rfl
  · interval_cases c <;> rfl

/-- Settles O18: the assembler and the decoder run on the eight rows. -/
theorem workedEncodingsAssemble : Obligations.WorkedEncodingsAssemble := by
  unfold Obligations.WorkedEncodingsAssemble
  decide +kernel

/-! ### 30_encoding.md R85: response counts -/

theorem State.frameOut_length (s : State) (xs : List Word) : (s.frameOut xs).length = xs.length := by
  simp [State.frameOut, frameOutputs]

theorem State.writeReg_rsp {s t : State} {data : Word} {r : Reg} (h : s.writeReg data r = some t) :
    t.rsp = s.rsp := by
  rcases State.writeReg_cases h with ⟨_, rfl⟩ | ⟨_, rfl⟩ | ⟨_, _, rfl⟩ <;> rfl

/-- Settles O20: by everything each command can do; RDREG and FRAME emit, a fault and a discard do
not. -/
theorem responseCountOfEachCommand : Obligations.ResponseCountOfEachCommand := by
  intro i s t hw h
  cases i with
  | nop =>
    rw [exec, execNop_eq] at h
    cases h
    simp
  | wrreg reg data =>
    rcases execWrreg_cases reg data s with ⟨hf, e⟩ | ⟨_, _, _, _, hwrite, e⟩ | ⟨hf, _, e⟩ <;>
      rw [exec, e] at h <;> cases h
    · simp [hf]
    · simp [State.writeReg_rsp hwrite]
    · simp [hf]
  | rdreg reg =>
    rcases execRdreg_cases reg s with ⟨r, hr, e⟩ | ⟨hr, hf, e⟩ | ⟨hr, hf, e⟩ <;>
      rw [exec, e] at h <;> cases h
    · simp +contextual [hr]
    · simp [hr, hf]
    · simp [hf]
  | reinit fs =>
    rcases execReinit_cases fs s with ⟨hf, e⟩ | ⟨hf, _, e⟩ | ⟨hf, _, _, e⟩ <;>
      rw [exec, e] at h <;> cases h <;> simp [hf]
  | frame xs =>
    rcases execFrame_cases ((Instr.wellFormed_frame xs).1 hw) s with
      ⟨hf, e⟩ | ⟨hf, _, e⟩ | ⟨hf, _, e⟩ <;> rw [exec, e] at h <;> cases h
    · simp [hf]
    · simp [hf]
    · simp [hf, State.frameOut_length]

/-! ### 60_exceptions.md R212, R213, 30_encoding.md R87: rejected words -/

theorem State.takeCommand_of_reject {s : State} {cmd : Word} {payload rest : List Word}
    {why : Reject} (hs : s.stream = cmd :: (payload ++ rest)) (hl : payload.length = payloadLen cmd)
    (hd : withPayload (verdict cmd) payload rest = .reject why) :
    s.takeCommand =
      .settled ((s.tookCommand (1 + payload.length) rest).rejectWord why cmd payload) := by
  rw [← decode_cons_append hl] at hd
  simp [State.takeCommand, hs, ← hl, hd]

theorem State.rejectWord_of_fault {s : State} (h : s.fault = true) (why : Reject) (cmd : Word)
    (payload : List Word) : s.rejectWord why cmd payload = s := if_pos h

theorem State.rejectWord_illegal {s : State} (h : s.fault = false) (cmd : Word)
    (payload : List Word) :
    s.rejectWord .illegal cmd payload = s.raiseFault cmd .illegalOpcode 0 := by
  simp [State.rejectWord, h]

theorem State.rejectWord_reserved {s : State} (h : s.fault = false) (cmd : Word)
    (payload : List Word) :
    s.rejectWord .reserved cmd payload = s.raiseFault cmd .reservedField (payload.headD 0) := by
  simp [State.rejectWord, h]

/-- Settles O53: a step rejects the word in the state `u` that has taken it and its payload. -/
theorem rejectedWordsFault : Obligations.RejectedWordsFault := by
  intro s cmd payload rest ha hs hl u
  have hu : s.acceptResponses.tookCommand (1 + payload.length) rest = u := by
    simp [State.tookCommand, u, Nat.add_assoc]
  have hfault : u.fault = s.fault := s.acceptResponses_fault
  have hstep {why : Reject} (hd : withPayload (verdict cmd) payload rest = .reject why) :
      step s = .next (u.rejectWord why cmd payload) := by
    rw [step_of_accepting ha,
      State.takeCommand_of_reject (s.acceptResponses_stream.trans hs) hl hd, hu]
  have hillegal (hv : verdict cmd = .illegal) : step s = .next (u.rejectWord .illegal cmd payload) :=
    hstep (by rw [hv]; rfl)
  have hreserved (hv : verdict cmd = .reserved) :
      step s = .next (u.rejectWord .reserved cmd payload) := hstep (by rw [hv]; rfl)
  refine ⟨fun hv hf => ⟨?_, ?_⟩, fun hv hf => ?_, fun hv hf => ?_⟩
  · exact List.eq_nil_of_length_eq_zero (hl.trans (payloadLen_of_illegal hv))
  · rw [hillegal hv, State.rejectWord_illegal (hfault.trans hf)]
    rfl
  · rw [hreserved hv, State.rejectWord_reserved (hfault.trans hf)]
    rfl
  · have hdiscard := State.rejectWord_of_fault (hfault.trans hf)
    rcases hv with hv | hv
    · rw [hillegal hv, hdiscard]
    · rw [hreserved hv, hdiscard]

end Sys2Proof.Machine

namespace Sys2Proof.Machine

/-! ### 40_oscillator_bank.md R102: the sine unit against the real sine -/

/-- What the sine unit rounds: `2^24 * sin` at the phase `p` in units of `2^-32` of a turn. -/
noncomputable def phaseSine (p : Nat) : ℝ := 2 ^ 24 * Real.sin (2 * Real.pi * p / 2 ^ 32)

theorem phaseSine_nonneg {p : Nat} (hp : p ≤ 2 ^ 31) : 0 ≤ phaseSine p := by
  have hp' : (p : ℝ) ≤ 2 ^ 31 := by exact_mod_cast hp
  have hangle : 2 * Real.pi * p / 2 ^ 32 ≤ Real.pi := by
    rw [div_le_iff₀ (by positivity)]
    nlinarith [Real.pi_pos]
  exact mul_nonneg (by positivity) (Real.sin_nonneg_of_nonneg_of_le_pi (by positivity) hangle)

/-- Half a turn further the sine is the negative. -/
theorem phaseSine_add_half (p : Nat) : phaseSine (p + 2 ^ 31) = -phaseSine p := by
  have hangle : 2 * Real.pi * (p + 2 ^ 31 : ℕ) / 2 ^ 32 = 2 * Real.pi * p / 2 ^ 32 + Real.pi := by
    push_cast
    ring
  rw [phaseSine, phaseSine, hangle, Real.sin_add_pi, mul_neg]

/-- Mirrored at the half turn the sine is the same. -/
theorem phaseSine_half_sub {p : Nat} (hp : p ≤ 2 ^ 31) : phaseSine (2 ^ 31 - p) = phaseSine p := by
  have hangle : 2 * Real.pi * (2 ^ 31 - p : ℕ) / 2 ^ 32 = Real.pi - 2 * Real.pi * p / 2 ^ 32 := by
    rw [Nat.cast_sub hp]
    push_cast
    ring
  rw [phaseSine, phaseSine, hangle, Real.sin_pi_sub]

/-- Mirrored at the full turn the sine is the negative. -/
theorem phaseSine_turn_sub {p : Nat} (hp : p ≤ 2 ^ 32) : phaseSine (2 ^ 32 - p) = -phaseSine p := by
  have hangle : 2 * Real.pi * (2 ^ 32 - p : ℕ) / 2 ^ 32 = 2 * Real.pi - 2 * Real.pi * p / 2 ^ 32 := by
    rw [Nat.cast_sub hp]
    push_cast
    ring
  rw [phaseSine, phaseSine, hangle, Real.sin_two_pi_sub, mul_neg]

theorem abs_phaseSine_le (p : Nat) : |phaseSine p| ≤ 2 ^ 24 := by
  rw [phaseSine, abs_mul, abs_of_pos (by positivity)]
  exact mul_le_of_le_one_right (by positivity) (Real.abs_sin_le_one _)

/-- Twice the sine of a rational angle is an algebraic integer, hence an integer where it is rational;
a tie would make it an odd number over `2^24`. -/
theorem phaseSine_ne_tie (p : Nat) (n : ℤ) : phaseSine p ≠ n + 1 / 2 := by
  intro h
  rw [phaseSine] at h
  have hangle : 2 * Real.pi * p / 2 ^ 32 = (2 * p / 2 ^ 32 : ℚ) * Real.pi := by
    push_cast
    ring
  have hsine : 2 * Real.sin (2 * Real.pi * p / 2 ^ 32) = ((2 * n + 1) / 2 ^ 24 : ℚ) := by
    push_cast
    linarith
  have hintegral := Real.isIntegral_two_mul_sin_rat_mul_pi (2 * p / 2 ^ 32)
  rw [← hangle] at hintegral
  obtain ⟨k, hk⟩ := hintegral.exists_int_iff_exists_rat.1 ⟨_, hsine⟩
  have hparity : (2 * n + 1 : ℝ) = 2 ^ 24 * k := by linarith
  have : 2 * n + 1 = 2 ^ 24 * k := by exact_mod_cast hparity
  omega

/-- The sine is the cosine at the distance from the quarter turn. -/
theorem phaseSine_eq_cos (p : Nat) :
    phaseSine p = 2 ^ 24 * Real.cos (2 * Real.pi * ((p - 2 ^ 30) + (2 ^ 30 - p) : ℕ) / 2 ^ 32) := by
  rcases le_total p (2 ^ 30) with h | h
  · have hangle : 2 * Real.pi * ((p - 2 ^ 30) + (2 ^ 30 - p) : ℕ) / 2 ^ 32 =
        Real.pi / 2 - 2 * Real.pi * p / 2 ^ 32 := by
      rw [Nat.sub_eq_zero_of_le h, zero_add, Nat.cast_sub h]
      push_cast
      ring
    rw [hangle, Real.cos_pi_div_two_sub, phaseSine]
  · have hangle : 2 * Real.pi * ((p - 2 ^ 30) + (2 ^ 30 - p) : ℕ) / 2 ^ 32 =
        2 * Real.pi * p / 2 ^ 32 - Real.pi / 2 := by
      rw [Nat.sub_eq_zero_of_le h, add_zero, Nat.cast_sub h]
      push_cast
      ring
    rw [hangle, Real.cos_sub_pi_div_two, phaseSine]

theorem sineHalf_eq_floor {p : Nat} (hp : p ≤ 2 ^ 31) : sineHalf p = ⌊phaseSine p + 1 / 2⌋ := by
  have hspec := cosRound_spec (q := (p - 2 ^ 30) + (2 ^ 30 - p)) (by omega)
  rw [← phaseSine_eq_cos] at hspec
  rw [eq_comm, Int.floor_eq_iff, sineHalf]
  constructor <;> linarith

/-- In the first half turn the unit rounds the sine, in the second the sine negated. -/
theorem sinq_cases (p : Word) :
    (0 ≤ phaseSine p.toNat ∧ sinq p = ⌊phaseSine p.toNat + 1 / 2⌋) ∨
      (phaseSine p.toNat ≤ 0 ∧ sinq p = -⌊-phaseSine p.toNat + 1 / 2⌋) := by
  by_cases hp : p.toNat ≤ 2 ^ 31
  · exact .inl ⟨phaseSine_nonneg hp, by rw [sinq, if_pos hp, sineHalf_eq_floor hp]⟩
  · obtain ⟨q, hq⟩ := Nat.exists_eq_add_of_le' (Nat.le_of_not_le hp)
    have hle : q ≤ 2 ^ 31 := by omega
    rw [sinq, if_neg hp, hq, phaseSine_add_half, Nat.add_sub_cancel, sineHalf_eq_floor hle, neg_neg]
    exact .inr ⟨neg_nonpos.2 (phaseSine_nonneg hle), rfl⟩

theorem sinq_eq_signed_floor (p : Word) :
    sinq p = if 0 ≤ phaseSine p.toNat then ⌊|phaseSine p.toNat| + 1 / 2⌋
      else -⌊|phaseSine p.toNat| + 1 / 2⌋ := by
  rcases sinq_cases p with ⟨h, e⟩ | ⟨h, e⟩
  · rw [if_pos h, abs_of_nonneg h, e]
  · rw [abs_of_nonpos h, e]
    rcases h.eq_or_lt with h0 | hneg
    · norm_num [h0]
    · rw [if_neg hneg.not_ge]

theorem abs_sinq_sub_phaseSine_le (p : Word) : |(sinq p : ℝ) - phaseSine p.toNat| ≤ 1 / 2 := by
  rw [abs_le]
  rcases sinq_cases p with ⟨_, e⟩ | ⟨_, e⟩ <;> rw [e]
  · have hle := Int.floor_le (phaseSine p.toNat + 1 / 2)
    have hlt := Int.lt_floor_add_one (phaseSine p.toNat + 1 / 2)
    constructor <;> linarith
  · have hle := Int.floor_le (-phaseSine p.toNat + 1 / 2)
    have hlt := Int.lt_floor_add_one (-phaseSine p.toNat + 1 / 2)
    push_cast
    constructor <;> linarith

/-- No tie occurs, so an integer within half a unit is nearer than that. -/
theorem abs_sub_phaseSine_lt {p : Nat} {n : ℤ} (h : |(n : ℝ) - phaseSine p| ≤ 1 / 2) :
    |(n : ℝ) - phaseSine p| < 1 / 2 := by
  refine h.lt_of_ne fun heq => ?_
  rcases eq_or_eq_neg_of_abs_eq heq with e | e
  · exact phaseSine_ne_tie p (n - 1) (by push_cast; linarith)
  · exact phaseSine_ne_tie p n (by linarith)

/-- Half a unit determines the value of the sine unit. -/
theorem eq_sinq_of_abs_sub_le {p : Word} {n : ℤ} (h : |(n : ℝ) - phaseSine p.toNat| ≤ 1 / 2) :
    n = sinq p := by
  have hn := abs_sub_phaseSine_lt h
  have hs := abs_sub_phaseSine_lt (abs_sinq_sub_phaseSine_le p)
  have hdist : |(n : ℝ) - sinq p| < 1 := by
    rw [abs_sub_comm] at hs
    linarith [abs_sub_le (n : ℝ) (phaseSine p.toNat) (sinq p)]
  rw [← sub_eq_zero, ← Int.abs_lt_one_iff]
  exact_mod_cast hdist

theorem abs_sinq_le (p : Word) : |sinq p| ≤ 2 ^ 24 := by
  have hs := abs_sub_phaseSine_lt (abs_sinq_sub_phaseSine_le p)
  have hlt : |(sinq p : ℝ)| < 2 ^ 24 + 1 := by
    linarith [abs_sub_abs_le_abs_sub (sinq p : ℝ) (phaseSine p.toNat), abs_phaseSine_le p.toNat]
  exact Int.lt_add_one_iff.1 (by exact_mod_cast hlt)

/-- Settles O21: each half turn is rounded by its own floor, and without a tie the nearest integer is
unique. -/
theorem sineUnitIsCorrectlyRounded : Obligations.SineUnitIsCorrectlyRounded := fun p =>
  ⟨sinq_eq_signed_floor p, abs_sinq_sub_phaseSine_le p, fun _ => eq_sinq_of_abs_sub_le,
    neg_le_of_abs_le (abs_sinq_le p), le_of_abs_le (abs_sinq_le p), phaseSine_ne_tie p.toNat⟩

/-! ### 40_oscillator_bank.md R103: the properties of the sine unit -/

theorem eq_sinq_ofNat {p : Nat} (hp : p < 2 ^ 32) {n : ℤ} (h : |(n : ℝ) - phaseSine p| ≤ 1 / 2) :
    n = sinq (BitVec.ofNat 32 p) :=
  eq_sinq_of_abs_sub_le (by rwa [BitVec.toNat_ofNat, Nat.mod_eq_of_lt hp])

theorem abs_sinq_ofNat_sub_phaseSine_le {p : Nat} (hp : p < 2 ^ 32) :
    |(sinq (BitVec.ofNat 32 p) : ℝ) - phaseSine p| ≤ 1 / 2 := by
  have h := abs_sinq_sub_phaseSine_le (BitVec.ofNat 32 p)
  rwa [BitVec.toNat_ofNat, Nat.mod_eq_of_lt hp] at h

theorem sinq_turn_sub {p : Nat} (h0 : 0 < p) (hp : p < 2 ^ 32) :
    sinq (BitVec.ofNat 32 (2 ^ 32 - p)) = -sinq (BitVec.ofNat 32 p) := by
  refine (eq_sinq_ofNat (by omega) ?_).symm
  rw [phaseSine_turn_sub hp.le, Int.cast_neg, neg_sub_neg, abs_sub_comm]
  exact abs_sinq_ofNat_sub_phaseSine_le hp

theorem sinq_half_sub {p : Nat} (hp : p ≤ 2 ^ 31) :
    sinq (BitVec.ofNat 32 (2 ^ 31 - p)) = sinq (BitVec.ofNat 32 p) := by
  refine (eq_sinq_ofNat (by omega) ?_).symm
  rw [phaseSine_half_sub hp]
  exact abs_sinq_ofNat_sub_phaseSine_le (by omega)

/-- A sine is at most its angle, and `2^24` of twenty units of phase is below one half. -/
theorem sinq_of_le_twenty {p : Nat} (hp : p ≤ 20) : sinq (BitVec.ofNat 32 p) = 0 := by
  refine (eq_sinq_ofNat (by omega) ?_).symm
  have hp' : (p : ℝ) ≤ 20 := by exact_mod_cast hp
  have hsin : Real.sin (2 * Real.pi * p / 2 ^ 32) ≤ 2 * Real.pi * p / 2 ^ 32 :=
    Real.sin_le (by positivity)
  have hangle : Real.pi * p ≤ 3.15 * 20 := by gcongr; exact Real.pi_lt_d2.le
  rw [Int.cast_zero, zero_sub, abs_neg, abs_of_nonneg (phaseSine_nonneg (by omega)), phaseSine]
  linarith

/-- Settles O22: the symmetries are those of the real sine, since half a unit determines the value; the
values at single phases evaluate. -/
theorem sineUnitProperties : Obligations.SineUnitProperties :=
  ⟨by decide +kernel, fun _ => sinq_turn_sub, fun _ => sinq_half_sub,
    fun p => abs_le.1 (abs_sinq_le p), fun _ => sinq_of_le_twenty, by decide +kernel⟩

/-! ### 40_oscillator_bank.md R110, R111: REINIT -/

theorem exec_reinit_of_legal {s : State} {fs : Word} (hf : s.fault = false) (hmin : 8000 ≤ fs.toNat)
    (hmax : fs.toNat ≤ 384000) : exec (.reinit fs) s = .next (s.reinitAt fs) := by
  rcases execReinit_cases fs s with ⟨h, _⟩ | ⟨_, h, _⟩ | ⟨_, _, _, e⟩
  · rw [hf] at h
    cases h
  · omega
  · exact e

theorem exec_reinit_of_illegal {s : State} {fs : Word} (hf : s.fault = false)
    (hfs : fs.toNat < 8000 ∨ 384000 < fs.toNat) :
    exec (.reinit fs) s = .next (s.raiseFault 0x30000000 .badRate fs) := by
  rcases execReinit_cases fs s with ⟨h, _⟩ | ⟨_, _, e⟩ | ⟨_, _, _, _⟩
  · rw [hf] at h
    cases h
  · exact e
  · omega

/-- Settles O26: the two equations of REINIT, with the operations of R111 written out. -/
theorem reinitEffects : Obligations.ReinitEffects := by
  refine fun s fs => ⟨fun hf hmin hmax => ?_, fun hf hfs => exec_reinit_of_illegal hf hfs⟩
  rw [exec_reinit_of_legal hf hmin hmax]
  simp only [State.reinitAt, phaseIncrement, Smoother.snap, Nat.cast_mul, Nat.cast_pow]
  rfl

/-! ### 40_oscillator_bank.md R106: the increments -/

/-- The least numerator that rounds to `k` or more is half a unit below `k`. -/
theorem le_rdiv_iff {n k : Int} (hn : 0 ≤ n) {d : Nat} (hd : 0 < d) :
    k ≤ rdiv n d ↔ (2 * k - 1) * d ≤ 2 * n := by
  rw [rdiv_of_nonneg hn, Int.le_ediv_iff_mul_le (by omega)]
  constructor <;> intro h <;> linarith

theorem rdiv_nonneg {n : Int} (hn : 0 ≤ n) (d : Nat) : 0 ≤ rdiv n d := by
  rw [rdiv_of_nonneg hn]
  positivity

theorem freq_range (i : Fin 10) : 174 ≤ Config.freq.get i ∧ Config.freq.get i ≤ 963 := by
  revert i
  decide

section
variable {fs : Nat} (hmin : 8000 ≤ fs) (hmax : fs ≤ 384000)
include hmin hmax

/-- The lowest tone at the highest rate and the highest tone at the lowest rate bound every increment. -/
theorem rdiv_freq_range (i : Fin 10) :
    1946157 ≤ rdiv (Config.freq.get i * 2 ^ 32) fs ∧
      rdiv (Config.freq.get i * 2 ^ 32) fs ≤ 517006688 := by
  obtain ⟨hlow, hhigh⟩ := freq_range i
  have hlt : rdiv (Config.freq.get i * 2 ^ 32) fs < 517006689 := by
    rw [← not_le, le_rdiv_iff (by positivity) (by omega)]
    omega
  refine ⟨?_, by omega⟩
  rw [le_rdiv_iff (by positivity) (by omega)]
  omega

theorem phaseIncrement_toNat (i : Fin 10) :
    ((phaseIncrement (Config.freq.get i) fs).toNat : Int) = rdiv (Config.freq.get i * 2 ^ 32) fs := by
  obtain ⟨hlow, hhigh⟩ := rdiv_freq_range hmin hmax i
  rw [phaseIncrement, u32, BitVec.toNat_ofInt, Nat.cast_mul, Nat.cast_pow, Nat.cast_ofNat]
  omega

theorem abs_phaseIncrement_sub_le (i : Fin 10) :
    |((phaseIncrement (Config.freq.get i) fs).toNat : ℚ) - Config.freq.get i * 2 ^ 32 / fs| ≤ 1 / 2 := by
  have hclose := abs_rdiv_sub_div_le_half (Config.freq.get i * 2 ^ 32) (by omega : 0 < fs)
  rw [← phaseIncrement_toNat hmin hmax] at hclose
  push_cast at hclose
  exact hclose

end

/-- Settles O24: a legal rate's increments are in range, so reducing them modulo 2^32 keeps their value. -/
theorem incrementsAreNearestAndInRange : Obligations.IncrementsAreNearestAndInRange := by
  refine fun s fs hf hmin hmax => ⟨_, exec_reinit_of_legal hf hmin hmax, fun i => ?_⟩
  have hinc := phaseIncrement_toNat hmin hmax i
  have hrange := rdiv_freq_range hmin hmax i
  rw [State.reinitAt_inc, Ten.get_ofFn]
  exact ⟨hinc, by omega, by omega⟩

/-! ### 40_oscillator_bank.md R105: the phase advance -/

theorem advancePhases_get (phase inc : Ten Word) (i : Fin 10) :
    (advancePhases phase inc).get i = phase.get i + inc.get i := Ten.get_ofFn _ i

/-- Settles O23: two words make less than two turns, and their sum modulo 2^32 is what is left of one. -/
theorem phaseWrapSubtractsOneTurn : Obligations.PhaseWrapSubtractsOneTurn := by
  intro phase inc i
  rw [advancePhases_get, BitVec.toNat_add]
  split <;> omega

/-! ### 40_oscillator_bank.md R107: the realized frequency -/

theorem iterate_advancePhases_get (inc : Ten Word) (k : Nat) (i : Fin 10) :
    ((fun phase => advancePhases phase inc)^[k] (Ten.replicate 0)).get i =
      BitVec.ofNat 32 (k * (inc.get i).toNat) := by
  induction k with
  | zero => simp
  | succ k ih =>
    rw [Function.iterate_succ_apply', advancePhases_get, ih, Nat.add_one_mul, BitVec.ofNat_add,
      BitVec.ofNat_toNat, BitVec.setWidth_eq]

/-- A rounded increment is off by half a unit, which is `fs / 2^33` Hz in frequency. -/
theorem abs_realized_sub_freq_le {inc F fs : ℚ} (hfs : 0 < fs)
    (h : |inc - F * 2 ^ 32 / fs| ≤ 1 / 2) : |inc * fs / 2 ^ 32 - F| ≤ fs / 2 ^ 33 := by
  have hscale : inc * fs / 2 ^ 32 - F = (inc - F * 2 ^ 32 / fs) * (fs / 2 ^ 32) := by
    field_simp
  rw [hscale, abs_mul, abs_of_pos (a := fs / 2 ^ 32) (by positivity)]
  calc |inc - F * 2 ^ 32 / fs| * (fs / 2 ^ 32) ≤ 1 / 2 * (fs / 2 ^ 32) := by gcongr
    _ = fs / 2 ^ 33 := by ring

/-- Over `n` advances the half units add up, beside the distance of `n` from the exact period. -/
theorem abs_period_sub_turn_le {inc F fs n : ℚ} (hfs : 0 < fs) (hn : 0 ≤ n)
    (h : |inc - F * 2 ^ 32 / fs| ≤ 1 / 2) :
    |n * inc - 2 ^ 32| ≤ |n * F - fs| * 2 ^ 32 / fs + n / 2 := by
  have hsplit : n * inc - 2 ^ 32 = (n * F - fs) * (2 ^ 32 / fs) + n * (inc - F * 2 ^ 32 / fs) := by
    field_simp
    ring
  calc |n * inc - 2 ^ 32|
      ≤ |n * F - fs| * (2 ^ 32 / fs) + n * |inc - F * 2 ^ 32 / fs| := by
        rw [hsplit]
        refine (abs_add_le _ _).trans_eq ?_
        rw [abs_mul, abs_mul, abs_of_nonneg hn, abs_of_pos (a := 2 ^ 32 / fs) (by positivity)]
    _ ≤ |n * F - fs| * (2 ^ 32 / fs) + n * (1 / 2) := by gcongr
    _ = |n * F - fs| * 2 ^ 32 / fs + n / 2 := by ring

/-- Settles O25: the increment is a quotient rounded to nearest, and every distance follows from its
half unit. -/
theorem frequencyRealizedIsClose : Obligations.FrequencyRealizedIsClose := by
  refine ⟨fun s fs hf hmin hmax => ⟨_, exec_reinit_of_legal hf hmin hmax, fun i => ?_⟩,
    iterate_advancePhases_get⟩
  have hpos : (0 : ℚ) < fs.toNat := by exact_mod_cast (by omega : 0 < fs.toNat)
  have hrate : (fs.toNat : ℚ) ≤ 384000 := by exact_mod_cast hmax
  have hperiod : (0 : ℚ) ≤ rdiv fs.toNat (Config.freq.get i) := by
    exact_mod_cast rdiv_nonneg (by positivity) _
  have hclose := abs_phaseIncrement_sub_le hmin hmax i
  rw [State.reinitAt_inc, Ten.get_ofFn]
  exact ⟨abs_realized_sub_freq_le hpos hclose, by linarith, abs_period_sub_turn_le hpos hperiod hclose⟩

end Sys2Proof.Machine

namespace Sys2Proof.Machine

/-! ### 41_parameter_smoothing.md R131, 10_state.md R33: the ramp length -/

/-- Settles O27: at a legal rate the rounded quotient of R131 is the floor of `(2 fs + 100) / 200`. -/
theorem rampLengthIsTenMilliseconds : Obligations.RampLengthIsTenMilliseconds := by
  intro s fs hf hmin hmax
  have hround := rdiv_of_nonneg (Int.natCast_nonneg fs.toNat) 100
  refine ⟨_, exec_reinit_of_legal hf hmin hmax, ?_⟩
  rw [State.reinitAt_rampLen]
  omega

/-! ### 41_parameter_smoothing.md R132: the target write -/

/-- A smoother at the start of a ramp of `n` advances from accumulator `a` to `target` (R132). -/
def Smoother.ramp (target : Nat) (a : Int) (n : Nat) : Smoother :=
  ⟨target, a, tdiv (target * 2 ^ 16 - a) n, n⟩

theorem Smoother.writeTarget_of_ramp_pos {n : Nat} {data : Word} {s : Smoother} (hn : 0 < n)
    (h : min data.toNat 65536 ≠ s.target) :
    s.writeTarget n data = Smoother.ramp (min data.toNat 65536) s.acc n := by
  rcases s.writeTarget_cases n data with ⟨ht, _⟩ | ⟨_, hzero, _⟩ | ⟨_, _, e⟩
  · exact absurd ht h
  · omega
  · exact e

theorem Smoother.writeTarget_of_ramp_zero {data : Word} {s : Smoother}
    (h : min data.toNat 65536 ≠ s.target) :
    s.writeTarget 0 data = ⟨min data.toNat 65536, (min data.toNat 65536 : Nat) * 2 ^ 16, 0, 0⟩ := by
  rcases s.writeTarget_cases 0 data with ⟨ht, _⟩ | ⟨_, _, e⟩ | ⟨_, hpos, _⟩
  · exact absurd ht h
  · exact e
  · omega

/-- The three cases of R132 for a command that runs the target write on the smoother `g`, which `put` puts
back into the state. -/
theorem next_writeTarget {put : Smoother → State} {g : Smoother} {n : Nat} {data : Word} {s : State}
    {o : Host.Outcome State Fault Refusal} (ho : o = .next (put (g.writeTarget n data)))
    (hput : put g = s) :
    let T : Nat := min data.toNat 65536
    (T = g.target → o = .next s) ∧ (T ≠ g.target → n = 0 → o = .next (put ⟨T, T * 2 ^ 16, 0, 0⟩)) ∧
      (T ≠ g.target → 0 < n → o = .next (put (Smoother.ramp T g.acc n))) := by
  subst ho
  refine ⟨fun h => ?_, fun h hzero => ?_, fun h hpos => ?_⟩
  · rw [Smoother.writeTarget_of_target_eq h.symm, hput]
  · rw [hzero, Smoother.writeTarget_of_ramp_zero h]
  · rw [Smoother.writeTarget_of_ramp_pos hpos h]

theorem exec_wrreg_mixTarget {s : State} (hf : s.fault = false) (data : Word) :
    exec (.wrreg 0x09 data) s = .next { s with mix := s.mix.writeTarget s.rampLen data } :=
  execWrreg_of_writeReg hf (regAt_index .mixTarget) rfl

theorem exec_wrreg_gainTarget {s : State} (hf : s.fault = false) (data : Word) (i : Fin 10) :
    exec (.wrreg (0x10 + BitVec.ofNat 8 i.val) data) s =
      .next { s with gain := s.gain.set i ((s.gain.get i).writeTarget s.rampLen data) } :=
  execWrreg_of_writeReg hf (regAt_index (.gainTarget i)) rfl

/-- Settles O28: each write runs the target write on its register's smoother, in R132's three cases. -/
theorem targetWriteLaw : Obligations.TargetWriteLaw := by
  refine fun s data hf => ⟨?_, fun i => ?_⟩
  · exact next_writeTarget (put := fun m => { s with mix := m }) (exec_wrreg_mixTarget hf data) rfl
  · exact next_writeTarget (put := fun g => { s with gain := s.gain.set i g })
      (exec_wrreg_gainTarget hf data i) (by rw [Ten.set_get])

/-! ### 41_parameter_smoothing.md R130, R134: the advance -/

theorem Smoother.advance_of_left_eq_zero {s : Smoother} (h : s.left = 0) : s.advance = s := if_pos h

theorem Smoother.advance_of_left_eq_one {s : Smoother} (h : s.left = 1) :
    s.advance = ⟨s.target, s.target * 2 ^ 16, s.step, 0⟩ := by
  simp [Smoother.advance, h]

theorem Smoother.advance_of_two_le_left {s : Smoother} (h : 2 ≤ s.left) :
    s.advance = ⟨s.target, s.acc + s.step, s.step, s.left - 1⟩ := by
  rw [Smoother.advance, if_neg (by omega), if_neg (by omega)]

theorem exec_frame_of_init {s : State} {xs : List Word} (h : 1 ≤ xs.length ∧ xs.length ≤ 8)
    (hf : s.fault = false) (hi : s.init = true) :
    exec (.frame xs) s = .next (s.advanceFrame.emit ((s.frameOut xs).map u32)) := by
  rcases execFrame_cases h s with ⟨hfault, _⟩ | ⟨_, hinit, _⟩ | ⟨_, _, e⟩
  · rw [hf] at hfault
    cases hfault
  · rw [hi] at hinit
    cases hinit
  · exact e

/-- Settles O30: after a FRAME each smoother is its own advance, in R134's three cases. -/
theorem frameAdvancesEachSmootherOnce : Obligations.FrameAdvancesEachSmootherOnce := by
  refine fun s xs h1 h8 hf hi => ⟨_, exec_frame_of_init ⟨h1, h8⟩ hf hi, fun a b hab => ?_⟩
  obtain rfl : b = a.advance := by
    rcases hab with ⟨rfl, rfl⟩ | ⟨i, rfl, rfl⟩
    · rfl
    · rw [State.emit_gain, State.advanceFrame_gain, Ten.get_ofFn]
  exact ⟨Smoother.advance_of_left_eq_zero, Smoother.advance_of_left_eq_one,
    Smoother.advance_of_two_le_left⟩

/-! ### 41_parameter_smoothing.md R133: the truncated step -/

/-- Multiples of a truncated step go from 0 toward the distance and do not pass it (R133). -/
theorem mul_tdiv_mem_uIcc (D : Int) {j k n : Nat} (hn : 0 < n) (hjk : j ≤ k) (hkn : k ≤ n) :
    k * tdiv D n ∈ Set.uIcc (j * tdiv D n) D := by
  have hjk' : (j : Int) ≤ k := by exact_mod_cast hjk
  have hkn' : (k : Int) ≤ n := by exact_mod_cast hkn
  rw [Set.mem_uIcc]
  rcases le_total 0 D with hD | hD
  · obtain ⟨hstep, hle, _⟩ := tdiv_of_nonneg hD hn
    exact .inl ⟨by gcongr, le_trans (by gcongr) hle⟩
  · obtain ⟨hstep, hle, _⟩ := tdiv_of_nonpos hD hn
    exact .inr ⟨hle.trans (mul_le_mul_of_nonpos_right hkn' hstep),
      mul_le_mul_of_nonpos_right hjk' hstep⟩

/-- What truncation leaves of the distance is less than one unit of each advance. -/
theorem abs_sub_mul_tdiv_lt (D : Int) {n : Nat} (hn : 0 < n) : |D - n * tdiv D n| < n := by
  rw [abs_lt]
  rcases le_total 0 D with hD | hD
  · have := tdiv_of_nonneg hD hn
    omega
  · have := tdiv_of_nonpos hD hn
    omega

/-! ### 41_parameter_smoothing.md R137: a ramp -/

theorem Smoother.iterate_advance_left (s : Smoother) (k : Nat) :
    (Smoother.advance^[k] s).left = s.left - k := by
  induction k with
  | zero => rfl
  | succ k ih => rw [Function.iterate_succ_apply', Smoother.advance_left, ih, Nat.sub_sub]

theorem Smoother.iterate_advance_of_lt_left {s : Smoother} {k : Nat} (h : k < s.left) :
    Smoother.advance^[k] s = ⟨s.target, s.acc + k * s.step, s.step, s.left - k⟩ := by
  induction k with
  | zero => simp
  | succ k ih =>
    rw [Function.iterate_succ_apply', ih (by omega), Smoother.advance_of_two_le_left (by dsimp only; omega),
      Nat.cast_succ, add_one_mul, add_assoc, Nat.sub_sub]

theorem Smoother.iterate_advance_of_left_le {s : Smoother} (hpos : 0 < s.left) {k : Nat}
    (h : s.left ≤ k) : Smoother.advance^[k] s = ⟨s.target, s.target * 2 ^ 16, s.step, 0⟩ := by
  induction k, h using Nat.le_induction with
  | base =>
    obtain ⟨m, hm⟩ := Nat.exists_eq_add_one.2 hpos
    rw [hm, Function.iterate_succ_apply', Smoother.iterate_advance_of_lt_left (by omega),
      Smoother.advance_of_left_eq_one (by simp [hm])]
  | succ k _ ih => rw [Function.iterate_succ_apply', ih, Smoother.advance_of_left_eq_zero rfl]

section
variable {n : Nat} (hn : 0 < n) (T : Nat) (a : Int)

theorem Smoother.ramp_acc_of_lt {k : Nat} (hk : k < n) :
    (Smoother.advance^[k] (Smoother.ramp T a n)).acc = a + k * tdiv (T * 2 ^ 16 - a) n := by
  rw [Smoother.iterate_advance_of_lt_left hk]
  rfl

include hn

theorem Smoother.ramp_acc_of_le {k : Nat} (hk : n ≤ k) :
    (Smoother.advance^[k] (Smoother.ramp T a n)).acc = T * 2 ^ 16 := by
  rw [Smoother.iterate_advance_of_left_le hn hk]
  rfl

/-- Every later accumulator of a ramp lies between an earlier one and the target: a ramp neither overshoots
nor turns back. -/
theorem Smoother.ramp_acc_mem_uIcc {j k : Nat} (hjk : j ≤ k) :
    (Smoother.advance^[k] (Smoother.ramp T a n)).acc ∈
      Set.uIcc (Smoother.advance^[j] (Smoother.ramp T a n)).acc (T * 2 ^ 16) := by
  rcases lt_or_ge k n with hk | hk
  · rw [Smoother.ramp_acc_of_lt T a hk, Smoother.ramp_acc_of_lt T a (hjk.trans_lt hk)]
    have hmem := mul_tdiv_mem_uIcc (T * 2 ^ 16 - a) hn hjk hk.le
    rw [Set.mem_uIcc] at hmem ⊢
    omega
  · rw [Smoother.ramp_acc_of_le hn T a hk]
    exact Set.right_mem_uIcc

end

/-- The codes lie as the accumulators they are cut from. -/
theorem Smoother.code_mem_uIcc {s : Smoother} {a : Int} {T : Nat}
    (h : s.acc ∈ Set.uIcc a (T * 2 ^ 16)) : s.code ∈ Set.uIcc (a / 65536) T := by
  rw [Set.mem_uIcc] at h ⊢
  rw [Smoother.code]
  omega

/-- Settles O29: a target write begins a ramp, whose accumulators are known in closed form. -/
theorem rampProperties : Obligations.RampProperties := by
  refine fun n data s hn _ => ⟨fun hne => ?_, fun h => Smoother.writeTarget_of_target_eq h.symm⟩
  rw [Smoother.writeTarget_of_ramp_pos hn hne]
  generalize min data.toNat 65536 = T
  refine ⟨fun k _ hk => ⟨Smoother.ramp_acc_of_lt T s.acc (by omega), Smoother.iterate_advance_left _ k⟩,
    fun k hk => ⟨Smoother.ramp_acc_of_le hn T s.acc hk, ?_⟩, fun k => ?_, fun k => ?_, fun k hk => ?_, ?_,
    abs_sub_mul_tdiv_lt _ hn⟩
  · exact (Smoother.iterate_advance_left _ k).trans (Nat.sub_eq_zero_of_le hk)
  · have hmem := Smoother.ramp_acc_mem_uIcc hn T s.acc (Nat.zero_le k)
    obtain ⟨hcodeLow, hcodeHigh⟩ := Smoother.code_mem_uIcc hmem
    obtain ⟨hlow, hhigh⟩ := hmem
    exact ⟨hlow, hhigh, hcodeLow, hcodeHigh⟩
  · exact Set.abs_sub_right_of_mem_uIcc
      (Smoother.code_mem_uIcc (Smoother.ramp_acc_mem_uIcc hn T s.acc k.le_succ))
  · rw [Smoother.ramp_acc_of_lt T s.acc hk, Smoother.ramp_acc_of_lt T s.acc (by omega)]
    push_cast
    ring
  · rw [Smoother.ramp_acc_of_le hn T s.acc le_rfl, Smoother.ramp_acc_of_lt T s.acc (by omega),
      Nat.cast_pred hn]
    ring

end Sys2Proof.Machine

namespace Sys2Proof.Machine

/-! ### 00_scope.md R8: bounds that rounding to nearest keeps -/

theorem rdiv_eq_zero {n : Int} {d : Nat} (h : 2 * n.natAbs < d) : rdiv n d = 0 := by
  rw [rdiv, Nat.div_eq_of_lt (by omega), Nat.cast_zero, mul_zero]

theorem le_rdiv_of_mul_le {k n : Int} {d : Nat} (h : k * d ≤ n) (hd : 0 < d) : k ≤ rdiv n d :=
  (rdiv_mul_self k hd).symm.trans_le (rdiv_mono h hd)

theorem rdiv_le_of_le_mul {k n : Int} {d : Nat} (h : n ≤ k * d) (hd : 0 < d) : rdiv n d ≤ k :=
  (rdiv_mono h hd).trans_eq (rdiv_mul_self k hd)

theorem abs_rdiv_le {n b : Int} (h : |n| ≤ b) {d : Nat} (hd : 0 < d) : |rdiv n d| ≤ rdiv b d := by
  obtain ⟨hlow, hhigh⟩ := abs_le.1 h
  rw [abs_le, ← rdiv_neg]
  exact ⟨rdiv_mono hlow hd, rdiv_mono hhigh hd⟩

theorem abs_rdiv_sub_real_div_le_half (n : Int) {d : Nat} (hd : 0 < d) :
    |(rdiv n d : ℝ) - n / d| ≤ 1 / 2 := by
  simpa using (Rat.cast_le (K := ℝ)).2 (abs_rdiv_sub_div_le_half n hd)

/-! ### 42_mixing_engine.md R153, R154, R163: the gate, a contribution and the sum -/

theorem contribution_of_gated {g : Int} (h : g ≤ 65) (t : Int) : contribution t g = 0 := by
  simp [contribution, toneActive, show ¬65536 < 1000 * g by omega]

theorem contribution_of_active {g : Int} (h : 66 ≤ g) (t : Int) :
    contribution t g = rdiv (t * g) 655360 := by
  simp [contribution, toneActive, show 65536 < 1000 * g by omega]

/-- Settles O38: the gate of R153 opens between the codes 65 and 66, and less than half the divisor rounds
to 0. -/
theorem gainGateIsExact : Obligations.GainGateIsExact := by
  refine fun t g => ⟨fun h => contribution_of_gated h t, fun h => contribution_of_active h t, fun h => ?_⟩
  rcases le_or_gt g 65 with hg | hg
  · exact contribution_of_gated hg t
  · rw [contribution_of_active hg, rdiv_eq_zero (by omega)]

theorem abs_contribution_le {t g : Int} (ht : |t| ≤ 2 ^ 24) (h0 : 0 ≤ g) (h1 : g ≤ 65536) :
    |contribution t g| ≤ 1677722 := by
  rcases le_or_gt g 65 with hg | hg
  · norm_num [contribution_of_gated hg]
  · have hprod : |t * g| ≤ 2 ^ 24 * 65536 := by
      rw [abs_mul, abs_of_nonneg h0]
      gcongr
    rw [contribution_of_active hg]
    exact abs_rdiv_le hprod (by norm_num)

theorem abs_sum_contribution_le {t g : Fin 10 → Int} (ht : ∀ i, |t i| ≤ 2 ^ 24)
    (hg : ∀ i, 0 ≤ g i ∧ g i ≤ 65536) : |∑ i, contribution (t i) (g i)| ≤ 16777220 :=
  calc |∑ i, contribution (t i) (g i)|
      ≤ ∑ i, |contribution (t i) (g i)| := Finset.abs_sum_le_sum_abs _ _
    _ ≤ ∑ _i : Fin 10, 1677722 :=
        Finset.sum_le_sum fun i _ => abs_contribution_le (ht i) (hg i).1 (hg i).2
    _ = 16777220 := by norm_num

theorem toneSum_tones (phase : Ten Word) (gain : Ten Smoother) :
    toneSum (tones phase) gain = ∑ i, contribution (sinq (phase.get i)) (gain.get i).code := by
  simp only [toneSum, tones, Ten.sum_eq, Ten.get_ofFn]

/-- Settles O33: the largest product rounds to 1677722, and ten contributions add up. -/
theorem toneSumIsBounded : Obligations.ToneSumIsBounded := by
  refine ⟨fun t g hlow hhigh h0 h1 => abs_le.1 (abs_contribution_le (abs_le.2 ⟨hlow, hhigh⟩) h0 h1),
    fun phase gain hgain => abs_le.1 ?_⟩
  rw [toneSum_tones]
  exact abs_sum_contribution_le (fun i => abs_sinq_le _) hgain

/-! ### 42_mixing_engine.md R156, R162: the sidechain gain -/

/-- The two branches of R156 are the larger of the two laws. -/
theorem sidechain_eq_max (a : Nat) : sidechain a = max (10 * (2 ^ 25 - (a : Int))) (3 * 2 ^ 25) := by
  rw [sidechain]
  split <;> omega

theorem sidechain_of_le {a : Nat} (h : 23488103 ≤ a) : sidechain a = 3 * 2 ^ 25 := by
  rw [sidechain_eq_max]
  omega

theorem sidechain_range (a : Nat) : 3 * 2 ^ 25 ≤ sidechain a ∧ sidechain a ≤ 10 * 2 ^ 25 := by
  rw [sidechain_eq_max]
  omega

/-- Settles O37: the falling law meets the floor between the amplitudes 23488102 and 23488103. -/
theorem duckingIsMonotone : Obligations.DuckingIsMonotone := by
  refine ⟨fun a b hab => ?_, fun a b hab hb => ?_, fun a ha => sidechain_of_le ha⟩ <;>
    · rw [sidechain_eq_max, sidechain_eq_max]
      omega

/-! ### 42_mixing_engine.md R157, R158: the modulator and its clamp -/

/-- At every sidechain gain the output is no larger than sample and sum together (R158). -/
theorem abs_modulatorNum_le {m S scn x : Int} (hm0 : 0 ≤ m) (hm1 : m ≤ 65536) (hscn0 : 0 ≤ scn)
    (hscn1 : scn ≤ 10 * 2 ^ 25) : |modulatorNum m S scn x| ≤ (|x| + |S|) * (10 * 2 ^ 41) := by
  have hw : 0 ≤ 655360 - 3 * m := by omega
  calc |modulatorNum m S scn x|
      ≤ |x * (655360 - 3 * m) * 2 ^ 25| + |S * m * scn| := abs_add_le _ _
    _ = |x| * (655360 - 3 * m) * 2 ^ 25 + |S| * m * scn := by
        simp only [abs_mul, abs_of_nonneg hw, abs_of_nonneg hm0, abs_of_nonneg hscn0, abs_pow,
          Nat.abs_ofNat]
    _ ≤ |x| * 655360 * 2 ^ 25 + |S| * 65536 * (10 * 2 ^ 25) := by
        gcongr
        omega
    _ = (|x| + |S|) * (10 * 2 ^ 41) := by ring

/-- At the floor of the sidechain gain the output is a weighted mean of sample and sum (R158). -/
theorem modulatorNum_floor_range {m S x lo hi : Int} (hm0 : 0 ≤ m) (hm1 : m ≤ 65536)
    (hx : lo ≤ x ∧ x ≤ hi) (hS : lo ≤ S ∧ S ≤ hi) :
    lo * (10 * 2 ^ 41) ≤ modulatorNum m S (3 * 2 ^ 25) x ∧
      modulatorNum m S (3 * 2 ^ 25) x ≤ hi * (10 * 2 ^ 41) := by
  have hw : 0 ≤ 655360 - 3 * m := by omega
  have hmean (y : Int) : y * (10 * 2 ^ 41) = y * (655360 - 3 * m) * 2 ^ 25 + y * m * (3 * 2 ^ 25) := by
    ring
  rw [hmean lo, hmean hi, modulatorNum]
  obtain ⟨hxl, hxh⟩ := hx
  obtain ⟨hSl, hSh⟩ := hS
  constructor <;> gcongr

section
variable {m S x : Int} {A : Nat} (hm0 : 0 ≤ m) (hm1 : m ≤ 65536) (hS : |S| ≤ 16777220)
  (hx0 : -2 ^ 31 ≤ x) (hx1 : x ≤ 2 ^ 31 - 1) (hA : x.natAbs ≤ A)
include hm0 hm1 hS hx0 hx1 hA

theorem modulatorNum_range : -2 ^ 31 * (10 * 2 ^ 41) ≤ modulatorNum m S (sidechain A) x ∧
    modulatorNum m S (sidechain A) x ≤ (2 ^ 31 - 1) * (10 * 2 ^ 41) := by
  rcases lt_or_ge A 23488103 with hlt | hge
  · obtain ⟨hscn0, hscn1⟩ := sidechain_range A
    have hx : |x| < 23488103 := by
      rw [Int.abs_eq_natAbs]
      omega
    have h := abs_le.1 (abs_modulatorNum_le (S := S) (x := x) hm0 hm1 (by omega) hscn1)
    constructor <;> linarith
  · rw [abs_le] at hS
    rw [sidechain_of_le hge]
    exact modulatorNum_floor_range hm0 hm1 ⟨hx0, hx1⟩ (by omega)

theorem rdiv_modulatorNum_range : -2 ^ 31 ≤ rdiv (modulatorNum m S (sidechain A) x) (10 * 2 ^ 41) ∧
    rdiv (modulatorNum m S (sidechain A) x) (10 * 2 ^ 41) ≤ 2 ^ 31 - 1 := by
  obtain ⟨hlow, hhigh⟩ := modulatorNum_range hm0 hm1 hS hx0 hx1 hA
  exact ⟨le_rdiv_of_mul_le hlow (by norm_num), rdiv_le_of_le_mul hhigh (by norm_num)⟩

theorem modulate_eq_rdiv :
    modulate m S (sidechain A) x = rdiv (modulatorNum m S (sidechain A) x) (10 * 2 ^ 41) := by
  obtain ⟨hlow, hhigh⟩ := rdiv_modulatorNum_range hm0 hm1 hS hx0 hx1 hA
  rw [modulate, min_eq_right hhigh, max_eq_right hlow]

end

/-- Settles O34: both ends of the range are integers, so rounding does not leave it. -/
theorem outputClampNeverActs : Obligations.OutputClampNeverActs := by
  intro m S x A hm0 hm1 hS0 hS1 hx0 hx1 hA
  have hS : |S| ≤ 16777220 := abs_le.2 ⟨hS0, hS1⟩
  obtain ⟨hlow, hhigh⟩ := rdiv_modulatorNum_range hm0 hm1 hS hx0 hx1 hA
  exact ⟨hlow, hhigh, modulate_eq_rdiv hm0 hm1 hS hx0 hx1 hA⟩

theorem modulate_zero (S scn : Int) {x : Int} (h0 : -2 ^ 31 ≤ x) (h1 : x ≤ 2 ^ 31 - 1) :
    modulate 0 S scn x = x := by
  have hnum : modulatorNum 0 S scn x = x * (10 * 2 ^ 41 : Nat) := by
    rw [modulatorNum]
    push_cast
    ring
  rw [modulate, hnum, rdiv_mul_self x (by norm_num), min_eq_right h1, max_eq_right h0]

/-! ### 42_mixing_engine.md R150, R155, R159 to R161: the FRAME command -/

section
variable {s : State} {xs : List Word} (h : 1 ≤ xs.length ∧ xs.length ≤ 8)
include h

theorem exec_frame_of_fault (hf : s.fault = true) : exec (.frame xs) s = .next s := by
  rcases execFrame_cases h s with ⟨_, e⟩ | ⟨hfault, _⟩ | ⟨hfault, _⟩
  · exact e
  all_goals exact nomatch hf.symm.trans hfault

theorem exec_frame_of_not_init (hf : s.fault = false) (hi : s.init = false) :
    exec (.frame xs) s =
      .next (s.raiseFault (commandWord (.frame xs)) .notInit (xs.headD 0)) := by
  rcases execFrame_cases h s with ⟨hfault, _⟩ | ⟨_, _, e⟩ | ⟨_, hinit, _⟩
  · exact nomatch hf.symm.trans hfault
  · exact e
  · exact nomatch hi.symm.trans hinit

end

theorem length_of_exec_frame {s t : State} {xs : List Word} (h : exec (.frame xs) s = .next t) :
    1 ≤ xs.length ∧ xs.length ≤ 8 := by
  by_contra hlen
  simp [exec, execFrame, (Instr.wellFormed_frame xs).not.2 hlen] at h

/-- Whatever its samples, a FRAME after a REINIT discards itself in the fault state or makes the one
advance, and adds responses. -/
theorem exec_frame_next_of_init {s t : State} {xs : List Word} (hi : s.init = true)
    (h : exec (.frame xs) s = .next t) :
    ∃ ws, t = { (if s.fault then s else s.advanceFrame) with rsp := ws } := by
  have hlen := length_of_exec_frame h
  cases hf : s.fault with
  | true =>
    rw [exec_frame_of_fault hlen hf] at h
    cases h
    exact ⟨_, rfl⟩
  | false =>
    rw [exec_frame_of_init hlen hf hi] at h
    cases h
    exact ⟨_, rfl⟩

/-- The loudest channel of a linked frame, folded from either end. -/
theorem detector_eq (linked : Bool) (xs : List Int) (x : Int) :
    detector linked xs x = if linked then (xs.map Int.natAbs).foldr max 0 else x.natAbs := by
  rw [detector, List.foldl_eq_foldr]

theorem detector_unlinked (xs : List Int) (x : Int) : detector false xs x = x.natAbs := rfl

theorem detector_singleton (linked : Bool) (x : Int) : detector linked [x] x = x.natAbs := by
  cases linked
  · rfl
  · exact Nat.zero_max _

/-- The output samples of a frame, sample by sample. -/
theorem State.frameOut_eq (s : State) (xs : List Word) :
    s.frameOut xs = xs.map fun w =>
      modulate s.mix.advance.code (toneSum (tones s.phase) s.advanceFrame.gain)
        (sidechain (detector s.sclink (xs.map s32) (s32 w))) (s32 w) :=
  List.map_map

/-- Settles O31: the next state is the model's, with the mixer's definitions written out. -/
theorem frameEffects : Obligations.FrameEffects := by
  intro s xs h1 h8 hf hi m g c S X Y
  have hsum : toneSum (tones s.phase) s.advanceFrame.gain = S := by
    simp [toneSum_tones, S, c, g, contribution, toneActive, Smoother.code]
  have hout : (s.frameOut xs).map u32 = X.map fun x => BitVec.ofInt 32 (Y x) := by
    rw [State.frameOut_eq, hsum, List.map_map]
    refine Eq.trans (List.map_congr_left fun w _ => ?_) List.map_map.symm
    rw [Function.comp_apply, detector_eq]
    rfl
  rw [exec_frame_of_init ⟨h1, h8⟩ hf hi, hout]
  rfl

theorem commandWord_frame_cons (x : Word) {more : List Word} (h : more.length ≤ 7) :
    commandWord (.frame (x :: more)) = 0x40000000 + BitVec.ofNat 32 more.length := by
  rw [commandWord, List.length_cons, Nat.add_sub_cancel]
  interval_cases more.length <;> rfl

/-- Settles O32: the fault entry of R210 with the frame's command word and first sample. -/
theorem frameBeforeReinitFaults : Obligations.FrameBeforeReinitFaults := by
  intro s x more hlen hf hi
  have hframe := exec_frame_of_not_init (xs := x :: more) ⟨Nat.succ_pos _, Nat.succ_le_succ hlen⟩ hf hi
  rwa [commandWord_frame_cons x hlen] at hframe

/-- Settles O35: what a FRAME advances does not depend on its samples. -/
theorem frameAdvanceIgnoresTheChannels : Obligations.FrameAdvanceIgnoresTheChannels := by
  intro s t u xs ys hi ht hu
  obtain ⟨_, rfl⟩ := exec_frame_next_of_init hi ht
  obtain ⟨_, rfl⟩ := exec_frame_next_of_init hi hu
  rfl

/-- Settles O36: the numerator of R157 is the sample times the divisor. -/
theorem zeroMixIsTheIdentity : Obligations.ZeroMixIsTheIdentity := by
  refine fun s xs h1 h8 hf hi hm => ⟨_, exec_frame_of_init ⟨h1, h8⟩ hf hi, ?_⟩
  have hsample (scn : Int) (w : Word) :
      u32 (modulate 0 (toneSum (tones s.phase) s.advanceFrame.gain) scn (s32 w)) = w := by
    rw [s32, modulate_zero _ _ w.le_toInt (Int.le_sub_one_of_lt w.toInt_lt)]
    exact BitVec.ofInt_toInt
  rw [State.emit_rsp, State.advanceFrame_rsp, State.frameOut_eq, hm, List.map_map]
  exact congrArg _ (List.map_id'' (fun w => hsample _ w) xs)

/-- Settles O39: without the link each output is its own sample's, by the state's mix and sum. -/
theorem unlinkedChannelsAreIndependent : Obligations.UnlinkedChannelsAreIndependent := by
  refine fun s hf hi hlink =>
    ⟨fun w => u32 (modulate s.mix.advance.code (toneSum (tones s.phase) s.advanceFrame.gain)
      (sidechain (s32 w).natAbs) (s32 w)), fun xs h1 h8 =>
    ⟨_, exec_frame_of_init ⟨h1, h8⟩ hf hi, ?_⟩⟩
  simp only [State.emit_rsp, State.advanceFrame_rsp, State.frameOut_eq, hlink, detector_unlinked,
    List.map_map]
  rfl

theorem State.frameOut_singleton_link (s : State) (b : Bool) (x : Word) :
    State.frameOut { s with sclink := b } [x] = s.frameOut [x] := by
  rw [State.frameOut_eq, State.frameOut_eq]
  simp [detector_singleton, State.advanceFrame]

/-- The one sample is the loudest of its frame, so both detectors give its amplitude. -/
theorem exec_frame_singleton_link (s : State) (b : Bool) (x : Word) :
    ∃ t, exec (.frame [x]) s = .next t ∧
      exec (.frame [x]) { s with sclink := b } = .next { t with sclink := b } := by
  have hlen : 1 ≤ [x].length ∧ [x].length ≤ 8 := by simp
  rcases execFrame_cases hlen s with ⟨hf, e⟩ | ⟨hf, hi, e⟩ | ⟨hf, hi, e⟩
  · exact ⟨_, e, exec_frame_of_fault hlen hf⟩
  · exact ⟨_, e, exec_frame_of_not_init hlen hf hi⟩
  · have elink := exec_frame_of_init (s := { s with sclink := b }) hlen hf hi
    rw [State.frameOut_singleton_link] at elink
    exact ⟨_, e, elink⟩

/-- Settles O40: the two next states are those of the frame of one sample under either link. -/
theorem linkHasNoEffectOnOneChannel : Obligations.LinkHasNoEffectOnOneChannel := by
  intro s t u x b ht hu
  obtain ⟨_, hs, hlink⟩ := exec_frame_singleton_link s b x
  cases hs.symm.trans ht
  cases hlink.symm.trans hu
  rfl

end Sys2Proof.Machine

namespace Sys2Proof.Machine

/-! ### 42_mixing_engine.md R164: the source's law in the reals -/

/-- What the source adds up for a tone value `t` of gain code `g`: gated at 0.001, with 0.1 of headroom. -/
noncomputable def toneLaw (g : Int) (t : ℝ) : ℝ :=
  if (g : ℝ) / 2 ^ 16 > 1 / 1000 then t * ((g : ℝ) / 2 ^ 16) * (1 / 10) else 0

/-- The source's output law for a sample `x` and ten tone values, with the mix `mu` and the sidechain
gain `sc`. -/
noncomputable def outputLaw (x mu sc : ℝ) (g : Fin 10 → Int) (wave : Fin 10 → ℝ) : ℝ :=
  x * (1 - mu * (3 / 10)) + (∑ i, toneLaw (g i) (wave i)) * mu * sc

theorem toneLaw_of_gated {g : Int} (h : g ≤ 65) (t : ℝ) : toneLaw g t = 0 := by
  have hg : (g : ℝ) ≤ 65 := by exact_mod_cast h
  rw [toneLaw, if_neg]
  linarith

theorem toneLaw_of_active {g : Int} (h : 66 ≤ g) (t : ℝ) :
    toneLaw g t = t * ((g : ℝ) / 2 ^ 16) * (1 / 10) := by
  have hg : (66 : ℝ) ≤ g := by exact_mod_cast h
  rw [toneLaw, if_pos]
  linarith

/-- A contribution is the law's, in units of `2^-24`, up to its rounding. -/
theorem abs_contribution_sub_toneLaw_le (t g : Int) :
    |(contribution t g : ℝ) - 2 ^ 24 * toneLaw g (t / 2 ^ 24)| ≤ 1 / 2 := by
  rcases le_or_gt g 65 with hg | hg
  · norm_num [contribution_of_gated hg, toneLaw_of_gated hg]
  · have hround := abs_rdiv_sub_real_div_le_half (t * g) (d := 655360) (by norm_num)
    rw [contribution_of_active hg, toneLaw_of_active hg]
    convert hround using 3
    push_cast
    ring

/-- The law is linear in the tone, so a tone's distance is scaled by its gain. -/
theorem abs_toneLaw_sub_le {g : Int} (hg : 0 ≤ g) {t u e : ℝ} (h : |t - u| ≤ e) :
    |toneLaw g t - toneLaw g u| ≤ 1 / 10 * ((g : ℝ) / 2 ^ 16) * e := by
  have hg' : (0 : ℝ) ≤ g := by exact_mod_cast hg
  have he : 0 ≤ e := (abs_nonneg _).trans h
  rcases le_or_gt g 65 with hgate | hgate
  · rw [toneLaw_of_gated hgate, toneLaw_of_gated hgate, sub_zero, abs_zero]
    positivity
  · have hfactor : toneLaw g t - toneLaw g u = 1 / 10 * ((g : ℝ) / 2 ^ 16) * (t - u) := by
      rw [toneLaw_of_active hgate, toneLaw_of_active hgate]
      ring
    rw [hfactor, abs_mul, abs_of_nonneg (a := 1 / 10 * ((g : ℝ) / 2 ^ 16)) (by positivity)]
    gcongr

/-- The held tone is off the real sine by the sine unit's half unit. -/
theorem abs_sinq_div_sub_sin_le (p : Word) :
    |(sinq p : ℝ) / 2 ^ 24 - Real.sin (2 * Real.pi * p.toNat / 2 ^ 32)| ≤ 1 / 2 ^ 25 := by
  have h := abs_sinq_sub_phaseSine_le p
  rw [phaseSine] at h
  obtain ⟨hlow, hhigh⟩ := abs_le.1 h
  rw [abs_le]
  constructor <;> linarith

/-- R156's integer is the source's sidechain gain. -/
theorem sidechain_div (a : Nat) :
    (sidechain a : ℝ) / (10 * 2 ^ 25) = 1 - min ((a : ℝ) / 2 ^ 24 / 2) (7 / 10) := by
  rw [sidechain_eq_max, div_eq_iff (by norm_num), sub_mul, min_mul_of_nonneg _ _ (by norm_num),
    ← max_sub_sub_left]
  push_cast
  congr 1 <;> ring

/-- R157's fraction is the source's law on the sample and the sum, in units of `2^-24`. -/
theorem modulatorNum_div (m S scn x : Int) :
    (modulatorNum m S scn x : ℝ) / (10 * 2 ^ 41 : Nat) =
      x * (1 - (m : ℝ) / 2 ^ 16 * (3 / 10)) + S * ((m : ℝ) / 2 ^ 16) * (scn / (10 * 2 ^ 25)) := by
  rw [modulatorNum]
  push_cast
  ring

theorem abs_sum_sub_le {f h b : Fin 10 → ℝ} (hb : ∀ i, |f i - h i| ≤ b i) :
    |∑ i, f i - ∑ i, h i| ≤ ∑ i, b i := by
  simp only [← Real.dist_eq] at hb ⊢
  exact dist_sum_sum_le_of_le Finset.univ fun i _ => hb i

/-- Ten contributions are off by ten half units. -/
theorem abs_sum_contribution_sub_le (t g : Fin 10 → Int) :
    |((∑ i, contribution (t i) (g i) : Int) : ℝ) - 2 ^ 24 * ∑ i, toneLaw (g i) (t i / 2 ^ 24)| ≤ 5 := by
  rw [Finset.mul_sum]
  push_cast
  refine (abs_sum_sub_le fun i => abs_contribution_sub_toneLaw_le (t i) (g i)).trans ?_
  norm_num

section
variable {mu sc : ℝ} (hmu : 0 ≤ mu) (hsc : 0 ≤ sc)
include hmu hsc

/-- Two values of the law on different tones are as far apart as their sums, scaled by mix and
sidechain. -/
theorem abs_outputLaw_sub_le (x : ℝ) {g : Fin 10 → Int} (hg : ∀ i, 0 ≤ g i) {v w : Fin 10 → ℝ}
    {e : ℝ} (h : ∀ i, |v i - w i| ≤ e) :
    |outputLaw x mu sc g v - outputLaw x mu sc g w| ≤
      1 / 10 * (∑ i, (g i : ℝ) / 2 ^ 16) * mu * sc * e := by
  have hsum := abs_sum_sub_le fun i => abs_toneLaw_sub_le (hg i) (h i)
  rw [← Finset.sum_mul, ← Finset.mul_sum] at hsum
  have hfactor : outputLaw x mu sc g v - outputLaw x mu sc g w =
      (∑ i, toneLaw (g i) (v i) - ∑ i, toneLaw (g i) (w i)) * (mu * sc) := by
    rw [outputLaw, outputLaw]
    ring
  rw [hfactor, abs_mul, abs_of_nonneg (mul_nonneg hmu hsc)]
  calc |∑ i, toneLaw (g i) (v i) - ∑ i, toneLaw (g i) (w i)| * (mu * sc)
      ≤ 1 / 10 * (∑ i, (g i : ℝ) / 2 ^ 16) * e * (mu * sc) := by gcongr
    _ = 1 / 10 * (∑ i, (g i : ℝ) / 2 ^ 16) * mu * sc * e := by ring

/-- The output's distance from the law: its own half unit, beside the sum's ten scaled by mix and
sidechain. -/
theorem abs_output_sub_outputLaw_le {x y S : ℝ} {g : Fin 10 → Int} {wave : Fin 10 → ℝ}
    (hS : |S - 2 ^ 24 * ∑ i, toneLaw (g i) (wave i)| ≤ 5)
    (hy : |y - (x * (1 - mu * (3 / 10)) + S * mu * sc)| ≤ 1 / 2) :
    |y / 2 ^ 24 - outputLaw (x / 2 ^ 24) mu sc g wave| ≤ (1 + 10 * mu * sc) / 2 ^ 25 := by
  have hsplit : y / 2 ^ 24 - outputLaw (x / 2 ^ 24) mu sc g wave =
      ((y - (x * (1 - mu * (3 / 10)) + S * mu * sc)) +
        (S - 2 ^ 24 * ∑ i, toneLaw (g i) (wave i)) * (mu * sc)) / 2 ^ 24 := by
    rw [outputLaw]
    ring
  have hscaled : |(S - 2 ^ 24 * ∑ i, toneLaw (g i) (wave i)) * (mu * sc)| ≤ 5 * (mu * sc) := by
    rw [abs_mul, abs_of_nonneg (mul_nonneg hmu hsc)]
    gcongr
  rw [hsplit, abs_div, abs_of_pos (a := (2 : ℝ) ^ 24) (by norm_num),
    div_le_div_iff₀ (by norm_num) (by norm_num)]
  linarith [(abs_add_le _ _).trans (add_le_add hy hscaled)]

end

theorem abs_modulate_sub_le {m S x : Int} {A : Nat} (hm0 : 0 ≤ m) (hm1 : m ≤ 65536)
    (hS : |S| ≤ 16777220) (hx0 : -2 ^ 31 ≤ x) (hx1 : x ≤ 2 ^ 31 - 1) (hA : x.natAbs ≤ A) :
    |(modulate m S (sidechain A) x : ℝ) - (x * (1 - (m : ℝ) / 2 ^ 16 * (3 / 10)) +
      S * ((m : ℝ) / 2 ^ 16) * (1 - min ((A : ℝ) / 2 ^ 24 / 2) (7 / 10)))| ≤ 1 / 2 := by
  rw [modulate_eq_rdiv hm0 hm1 hS hx0 hx1 hA, ← sidechain_div, ← modulatorNum_div]
  exact abs_rdiv_sub_real_div_le_half _ (by norm_num)

/-- Settles O41: one half unit for the output, ten for the contributions, and the sine unit's own for each
tone. -/
theorem outputIsCloseToTheRealLaw : Obligations.OutputIsCloseToTheRealLaw := by
  intro m x p g A hm0 hm1 hg hx0 hx1 hA mu sc law y z Y
  have hmu0 : 0 ≤ mu := div_nonneg (by exact_mod_cast hm0) (by norm_num)
  have hmu1 : mu ≤ 1 := div_le_one_of_le₀ (by exact_mod_cast hm1) (by norm_num)
  have hsc0 : 0 ≤ sc := sub_nonneg.2 ((min_le_right _ _).trans (by norm_num))
  have hsc1 : sc ≤ 1 := sub_le_self 1 (by positivity)
  have hsum := abs_sum_contribution_le (fun i => abs_sinq_le (p i)) hg
  have hheld : |(Y : ℝ) / 2 ^ 24 - y| ≤ (1 + 10 * mu * sc) / 2 ^ 25 :=
    abs_output_sub_outputLaw_le hmu0 hsc0 (abs_sum_contribution_sub_le _ g)
      (abs_modulate_sub_le hm0 hm1 hsum hx0 hx1 hA)
  have hsine : |y - z| ≤ 1 / 10 * (∑ i, (g i : ℝ) / 2 ^ 16) * mu * sc * (1 / 2 ^ 25) :=
    abs_outputLaw_sub_le hmu0 hsc0 _ (fun i => (hg i).1) fun i => abs_sinq_div_sub_sin_le (p i)
  refine ⟨hheld, ?_, ?_⟩
  · have hscale : mu * sc ≤ 1 := mul_le_one₀ hmu1 hsc0 hsc1
    linarith
  · linarith [abs_sub_le ((Y : ℝ) / 2 ^ 24) y z]

end Sys2Proof.Machine

namespace Sys2Proof.Machine

/-! ### 10_state.md R26, R33, R48, 43_control_commands.md R186: the unused bits of a register -/

theorem extractLsb'_ofNat_eq_zero {v k : Nat} (h : v < 2 ^ k) (n : Nat) :
    (BitVec.ofNat 32 v).extractLsb' k n = 0 := by
  have hlt : v % 2 ^ 32 < 2 ^ k := (Nat.mod_le _ _).trans_lt h
  rw [BitVec.extractLsb', BitVec.toNat_ofNat, Nat.shiftRight_eq_div_pow, Nat.div_eq_of_lt hlt,
    BitVec.ofNat_eq_ofNat]

/-- The longest ramp is that of the highest rate. -/
theorem State.rampLen_le {s : State} (h : s.Inv) : s.rampLen ≤ 3840 := by
  obtain ⟨_, ⟨hcold, hwarm⟩, _⟩ := h
  cases hi : s.init with
  | false =>
    obtain ⟨_, hzero, _⟩ := hcold hi
    omega
  | true =>
    obtain ⟨_, hmax, hround, _⟩ := hwarm hi
    rw [rdiv_of_nonneg (Int.natCast_nonneg _)] at hround
    omega

/-- The unused bits of the three registers of one smoother. -/
theorem Smoother.unused_bits {n : Nat} {g : Smoother} (h : g.Ok n) (hn : n ≤ 3840) :
    (BitVec.ofNat 32 g.target).extractLsb' 17 15 = 0 ∧ (u32 g.code).extractLsb' 17 15 = 0 ∧
      (BitVec.ofNat 32 g.left).extractLsb' 12 20 = 0 := by
  obtain ⟨hlow, hhigh⟩ := Smoother.code_range h
  obtain ⟨htarget, _, _, _, _, hleft, _⟩ := h
  obtain ⟨c, hc⟩ := Int.eq_ofNat_of_zero_le hlow
  rw [hc, u32, BitVec.ofInt_natCast]
  exact ⟨extractLsb'_ofNat_eq_zero (by omega) 15, extractLsb'_ofNat_eq_zero (by omega) 15,
    extractLsb'_ofNat_eq_zero (by omega) 20⟩

/-- Settles O3: CTRL holds one bit, and every other value is below a power of two by the invariant's
ranges. -/
theorem unusedRegisterBitsReadZero : Obligations.UnusedRegisterBitsReadZero := by
  intro s h
  have hramp := State.rampLen_le h
  obtain ⟨_, _, hmix, hgain, _⟩ := h
  obtain ⟨htarget, hcurrent, hleft⟩ := Smoother.unused_bits hmix hramp
  exact ⟨extractLsb'_ofNat_eq_zero (k := 1) s.sclink.toNat_lt 31, htarget, hcurrent, hleft,
    extractLsb'_ofNat_eq_zero (by omega) 20, fun i => Smoother.unused_bits (hgain i) hramp⟩

/-! ### 43_control_commands.md R180: NOP -/

/-- Settles O42: NOP is the identity in and outside the fault state. -/
theorem nopChangesNothing : Obligations.NopChangesNothing := execNop_eq

/-! ### 30_encoding.md R82: command words with a register index -/

/-- An index does not meet the opcode, so joining them is adding them. -/
theorem or_setWidth_eq_add {w : Word} (hw : w.setWidth 8 = 0#8) (reg : BitVec 8) :
    w ||| reg.setWidth 32 = w + reg.setWidth 32 := by
  refine (BitVec.add_eq_or_of_and_eq_zero _ _ ?_).symm
  ext j hj
  by_cases h8 : j < 8
  · have hbit : w.getLsbD j = false := by simpa [h8] using congrArg (·.getLsbD j) hw
    simp [← BitVec.getLsbD_eq_getElem, hbit]
  · simp [BitVec.getLsbD_of_ge reg j (Nat.le_of_not_lt h8)]

/-! ### 43_control_commands.md R181 to R183: register writes -/

theorem gainTarget_index_toNat (i : Fin 10) : (Reg.gainTarget i).index.toNat = 0x10 + i.val := by
  revert i
  decide

/-- The writable indices of R182. -/
theorem index_of_writeReg {s t : State} {data : Word} {r : Reg} (h : s.writeReg data r = some t) :
    r.index = 0x03 ∨ r.index = 0x09 ∨ (0x10 ≤ r.index.toNat ∧ r.index.toNat ≤ 0x19) := by
  rcases State.writeReg_cases h with ⟨rfl, _⟩ | ⟨rfl, _⟩ | ⟨i, rfl, _⟩
  · exact .inl rfl
  · exact .inr (.inl rfl)
  · rw [gainTarget_index_toNat]
    omega

/-- Settles O44: a write that is no fault has a writable register, whose index is none of these. -/
theorem writeOfUnwritableRegisterFaults : Obligations.WriteOfUnwritableRegisterFaults := by
  intro s reg data hf hctrl hmix hgain
  rcases execWrreg_cases reg data s with ⟨hfault, _⟩ | ⟨_, r, t, hr, hw, _⟩ | ⟨_, _, e⟩
  · exact nomatch hf.symm.trans hfault
  · obtain rfl := index_of_regAt hr
    rcases index_of_writeReg hw with h | h | h
    · exact absurd h hctrl
    · exact absurd h hmix
    · exact absurd h hgain
  · rw [or_setWidth_eq_add rfl] at e
    exact e

theorem State.value_set_mix (s : State) (m : Smoother) {r : Reg} (ht : r ≠ .mixTarget)
    (hc : r ≠ .mixCurrent) (hl : r ≠ .mixLeft) (hs : r ≠ .status) :
    State.value { s with mix := m } r = s.value r := by
  cases r with
  | mixTarget => exact absurd rfl ht
  | mixCurrent => exact absurd rfl hc
  | mixLeft => exact absurd rfl hl
  | status => exact absurd rfl hs
  | _ => rfl

theorem State.value_set_gain (s : State) (i : Fin 10) (g : Smoother) {r : Reg}
    (ht : r ≠ .gainTarget i) (hc : r ≠ .gainCurrent i) (hl : r ≠ .gainLeft i) (hs : r ≠ .status) :
    State.value { s with gain := s.gain.set i g } r = s.value r := by
  cases r with
  | gainTarget j => simp [State.value, Ten.get_set_of_ne _ _ (ne_of_apply_ne _ ht)]
  | gainCurrent j => simp [State.value, Ten.get_set_of_ne _ _ (ne_of_apply_ne _ hc)]
  | gainLeft j => simp [State.value, Ten.get_set_of_ne _ _ (ne_of_apply_ne _ hl)]
  | status => exact absurd rfl hs
  | _ => rfl

/-- Settles O45: the write replaces one smoother, which no other register but STATUS is about. -/
theorem targetWriteLeavesOtherRegisters : Obligations.TargetWriteLeavesOtherRegisters := by
  refine fun s data hf => ⟨?_, fun i => ?_⟩
  · exact ⟨_, exec_wrreg_mixTarget hf data, rfl, fun _ => s.value_set_mix _⟩
  · exact ⟨_, exec_wrreg_gainTarget hf data i, rfl, fun _ => s.value_set_gain i _⟩

/-! ### 43_control_commands.md R184, R185: register reads -/

theorem exec_rdreg_index (r : Reg) (s : State) :
    exec (.rdreg r.index) s = .next { s with rsp := s.rsp ++ [s.value r] } :=
  execRdreg_of_regAt (regAt_index r) s

theorem State.ctrl_eq_ite (s : State) : s.ctrl = if s.sclink then 1 else 0 := by
  rw [State.ctrl]
  cases s.sclink <;> rfl

/-- Settles O47: a read answers the register's value, which R28 to R45 give as a field or a constant. -/
theorem readAnswersEachRegister : Obligations.ReadAnswersEachRegister := by
  intro s answers
  refine ⟨exec_rdreg_index .id s, exec_rdreg_index .version s, exec_rdreg_index .status s, ?_,
    exec_rdreg_index .activeRate s, exec_rdreg_index .rampLen s, exec_rdreg_index .frameCount s,
    exec_rdreg_index .faultCmd s, exec_rdreg_index .faultArg s, exec_rdreg_index .mixTarget s,
    exec_rdreg_index .mixCurrent s, exec_rdreg_index .mixLeft s, fun i =>
    ⟨exec_rdreg_index (.gainTarget i) s, exec_rdreg_index (.gainCurrent i) s,
      exec_rdreg_index (.gainLeft i) s, exec_rdreg_index (.phase i) s,
      exec_rdreg_index (.phaseInc i) s, ?_⟩⟩
  · rw [← s.ctrl_eq_ite]
    exact exec_rdreg_index .ctrl s
  · have hfreq : ([174, 285, 396, 417, 432, 528, 639, 741, 852, 963][i.val]! : Word) =
        s.value (.freq i) := by
      fin_cases i <;> rfl
    rw [hfreq]
    exact exec_rdreg_index (.freq i) s

/-- Settles O48: an index that no register has names none. -/
theorem readOfReservedIndexFaults : Obligations.ReadOfReservedIndexFaults := by
  intro s reg hf hreg
  rcases execRdreg_cases reg s with ⟨r, hr, _⟩ | ⟨_, hfault, _⟩ | ⟨_, _, e⟩
  · exact absurd (index_of_regAt hr) (hreg r)
  · exact nomatch hf.symm.trans hfault
  · rw [or_setWidth_eq_add rfl] at e
    exact e

end Sys2Proof.Machine

namespace Sys2Proof.Machine

/-! ### 60_exceptions.md R210 to R212: commands at the edge of the fault state and inside it -/

/-- The fault entry of R210 is the one way a command goes into the fault state. -/
theorem eq_raiseFault_of_exec {i : Instr} {s t : State} (h : exec i s = .next t)
    (hs : s.fault = false) (ht : t.fault = true) :
    ∃ cause, cause ≠ .none ∧ t = s.raiseFault (commandWord i) cause ((payloadOf i).headD 0) := by
  rcases exec_cases h with rfl | ⟨_, _, hraise⟩ | ⟨_, _, _, _, _, _, hw⟩ | ⟨_, _, _, _, rfl⟩ |
    ⟨_, _, _, _, _, rfl⟩ | ⟨_, _, _, _, _, _, rfl⟩
  case inr.inl => exact hraise
  case inr.inr.inl => exact nomatch ht.symm.trans ((State.writeReg_fault hw).trans hs)
  all_goals exact nomatch ht.symm.trans hs

/-- Settles O50: fault entry writes the fault record only, with the command's first payload word. -/
theorem faultsArePrecise : Obligations.FaultsArePrecise := by
  intro i s t _ h hs ht
  obtain ⟨cause, hcause, rfl⟩ := eq_raiseFault_of_exec h hs ht
  exact ⟨rfl, hcause, by cases i <;> rfl⟩

/-- The fault state's filter lets only the reads of registers through (R212). -/
theorem exec_next_of_fault {i : Instr} {s t : State} (hf : s.fault = true) (h : exec i s = .next t) :
    t = s ∨ ∃ r : Reg, i = .rdreg r.index ∧ t = s.emit [s.value r] := by
  rcases exec_cases h with rfl | ⟨hrun, _⟩ | ⟨_, _, _, _, hrun, _⟩ | ⟨_, r, rfl, hr, rfl⟩ |
    ⟨_, _, hrun, _⟩ | ⟨_, _, _, _, hrun, _⟩
  case inl => exact .inl rfl
  case inr.inr.inr.inl => exact .inr ⟨r, by rw [index_of_regAt hr], rfl⟩
  all_goals exact nomatch hf.symm.trans hrun

/-- Settles O51: a well-formed command has a next state, and only a read's differs from the state
before. -/
theorem faultStateDiscardsCommands : Obligations.FaultStateDiscardsCommands := by
  intro i s hf hw hread
  obtain ⟨t, ht⟩ := exec_of_wellFormed hw s
  rcases exec_next_of_fault hf ht with rfl | ⟨r, hi, _⟩
  · exact ht
  · exact absurd hi (hread r)

/-! ### 60_exceptions.md R215: what a step changes in the fault state -/

/-- The second state is the first one but for `cp` and the words of the two streams. -/
def State.SameButStreams (s t : State) : Prop :=
  t = { s with cp := t.cp, taken := t.taken, rsp := t.rsp, cmdIn := t.cmdIn, received := t.received }

theorem State.SameButStreams.trans {s t u : State} (hst : s.SameButStreams t)
    (htu : t.SameButStreams u) : s.SameButStreams u :=
  Eq.trans htu (congrArg (fun v : State => { v with
    cp := u.cp, taken := u.taken, rsp := u.rsp, cmdIn := u.cmdIn, received := u.received }) hst)

theorem State.SameButStreams.fault_eq {s t : State} (h : s.SameButStreams t) : t.fault = s.fault := by
  rw [State.SameButStreams] at h
  rw [h]

theorem State.sameButStreams_acceptResponses (s : State) : s.SameButStreams s.acceptResponses := by
  rcases s.acceptResponses_cases with ⟨_, e⟩ | ⟨_, _, _, _, e⟩ <;> rw [e] <;> rfl

/-- Taking words writes the streams, and in the fault state a rejected word does nothing more (R212). -/
theorem State.sameButStreams_takeCommand {s : State} (hf : s.fault = true) :
    s.SameButStreams s.takeCommand.state := by
  rcases s.takeCommand_cases with ⟨_, e⟩ | ⟨_, _, _, _, e⟩ | ⟨_, _, _, _, _, _, _, e⟩ |
    ⟨cmd, rest, why, _, _, _, e⟩ <;> rw [e]
  case inr.inr.inr =>
    rw [State.rejectWord_of_fault (s := s.tookCommand _ _) hf]
    rfl
  all_goals rfl

theorem sameButStreams_of_exec {i : Instr} {s t : State} (hf : s.fault = true)
    (h : exec i s = .next t) : s.SameButStreams t := by
  rcases exec_next_of_fault hf h with rfl | ⟨_, _, rfl⟩ <;> rfl

theorem sameButStreams_of_step {s t : State} (hf : s.fault = true) (hr : s.rstN = true)
    (h : step s = .next t) : s.SameButStreams t := by
  have htake := s.sameButStreams_acceptResponses.trans
    (State.sameButStreams_takeCommand (s.acceptResponses_fault.trans hf))
  rcases step_next_cases h with ⟨hr', _⟩ | ⟨_, _, rfl⟩ | ⟨_, hc | ⟨i, u, hc, he⟩⟩
  · exact nomatch hr.symm.trans hr'
  · rfl
  · rwa [hc] at htake
  · rw [hc] at htake
    exact htake.trans (sameButStreams_of_exec (htake.fault_eq.trans hf) he)

/-- A step with `rst_n` low is a reset edge (70_reset_and_hazards.md R230). -/
theorem eq_resetEdge_of_step {s t : State} (hr : s.rstN = false) (h : step s = .next t) :
    t = s.resetEdge := by
  rcases step_next_cases h with ⟨_, e⟩ | ⟨hr', _⟩ | ⟨⟨hr', _⟩, _⟩
  · exact e
  all_goals exact nomatch hr.symm.trans hr'

/-- Settles O52: with `rst_n` high every part of a step writes the streams only, and a reset edge clears
the fault record. -/
theorem faultStateIsSticky : Obligations.FaultStateIsSticky := by
  refine fun s t hf h => ⟨fun hr => ?_, fun hr => ?_⟩
  · have hsame := sameButStreams_of_step hf hr h
    exact ⟨hsame, hsame.fault_eq.trans hf⟩
  · obtain rfl := eq_resetEdge_of_step hr h
    exact ⟨rfl, rfl⟩

/-! ### 60_exceptions.md R212: a whole command on the stream -/

theorem State.takeCommand_of_encode {s : State} {i : Instr} {rest : List Word}
    (hw : i.wellFormed = true) (hs : s.stream = encode i ++ rest) :
    s.takeCommand = .run i (s.tookCommand (encode i).length rest) := by
  have hd := decode_encode_append hw rest
  rw [encode, List.cons_append] at hs hd
  simp [State.takeCommand, hs, hd, payloadLen_commandWord hw, encode, Nat.add_comm]

/-- Settles O54: what decodes is the command's encoding, whose words the step takes. -/
theorem stepRunsTheDecodedCommand : Obligations.StepRunsTheDecodedCommand := by
  intro s i rest ha hd
  obtain ⟨hw, hs⟩ := encodeOfDecode i s.stream rest hd
  rw [step_of_accepting ha, State.takeCommand_of_encode hw (s.acceptResponses_stream.trans hs),
    ← s.acceptResponses_cp]
  rfl

/-! ### 20_memory.md R60, R61, 60_exceptions.md R220, 70_reset_and_hazards.md R230: the output pins -/

theorem State.rspValid_iff (s : State) : s.rspValid = true ↔ s.rstN = true ∧ s.rsp ≠ [] := by
  simp [State.rspValid]

/-- Settles O58: each pin is the function of the state that its rule gives, and a reset edge clears
FAULT. -/
theorem outputPinsFollowTheState : Obligations.OutputPinsFollowTheState := by
  refine fun s => ⟨rfl, fun hr => ⟨?_, fun w rest hrsp => ?_, fun hready hne => ?_⟩,
    fun hr => ⟨?_, ?_, fun t ht => ?_⟩⟩
  · rw [s.rspValid_iff, and_iff_right hr]
  · rw [State.rspData, hrsp, List.head?_cons]
  · simp [← Bool.not_eq_true, s.cmdReady_iff, hready, hne]
  · simp [← Bool.not_eq_true, s.rspValid_iff, hr]
  · simp [← Bool.not_eq_true, s.cmdReady_iff, hr]
  · obtain rfl := eq_resetEdge_of_step hr ht
    rfl

end Sys2Proof.Machine

namespace Sys2Proof.Machine

/-! ### 20_memory.md R61, 70_reset_and_hazards.md R249: what a step does not depend on -/

/-- The state after a step that waits (20_memory.md R75): the responses have gone if the host is ready, and
the whole stream is taken. -/
def State.afterWait (s : State) : State := { s.acceptResponses with taken := s.stream, cmdIn := [] }

theorem State.Accepting.acceptResponses_received {s : State} (h : s.Accepting) :
    s.acceptResponses.received = s.responses := by
  rw [← s.acceptResponses_responses, State.responses, h.rsp_eq_nil, List.append_nil]

theorem State.Accepting.afterWait_eq {s : State} (h : s.Accepting) :
    s.afterWait = { s with taken := s.stream, cmdIn := [], rsp := [], received := s.responses } := by
  have hrsp := h.rsp_eq_nil
  rcases s.acceptResponses_cases with ⟨_, e⟩ | ⟨_, _, _, _, e⟩
  · rw [State.afterWait, ← h.acceptResponses_received, e]
    rw [e] at hrsp
    rw [← hrsp]
  · rw [State.afterWait, e]
    rfl

theorem State.eq_of_stream_eq_nil {s : State} (h : s.stream = []) :
    { s with taken := [], cmdIn := [] } = s := by
  obtain ⟨htaken, hcmdIn⟩ := List.append_eq_nil_iff.1 h
  cases s
  simp_all

/-- How the stream is split between taken and offered makes no difference to what is taken next. -/
theorem State.takeCommand_afterWait (s : State) :
    s.afterWait.takeCommand = s.acceptResponses.takeCommand := by
  have hs : s.afterWait.stream = s.acceptResponses.stream :=
    (List.append_nil _).trans s.acceptResponses_stream.symm
  rw [State.takeCommand, State.takeCommand, hs]
  split
  case h_1 hnil =>
    rw [State.afterWait, ← s.acceptResponses_stream, hnil, State.eq_of_stream_eq_nil hnil]
  case h_2 => rfl

/-- The same block beside another host: its `rsp_ready` and the words it has received. -/
def State.withHost (s : State) (ready : Bool) (received : List Word) : State :=
  { s with rspReady := ready, received := received }

/-- The event with the state of it changed. -/
def Event.map (f : State → State) : Event → Event
  | .settled t => .settled (f t)
  | .run i t => .run i (f t)

section
variable (s : State) (ready : Bool) (received : List Word)

@[simp] theorem State.withHost_fault : (s.withHost ready received).fault = s.fault := rfl

theorem State.value_withHost (r : Reg) : (s.withHost ready received).value r = s.value r := by
  cases r <;> rfl

theorem State.bind_writeReg_withHost (data : Word) (r : Option Reg) :
    r.bind ((s.withHost ready received).writeReg data) =
      (r.bind (s.writeReg data)).map (·.withHost ready received) := by
  cases r with
  | none => rfl
  | some r => cases r <;> rfl

theorem State.rejectWord_withHost (why : Reject) (cmd : Word) (payload : List Word) :
    (s.withHost ready received).rejectWord why cmd payload =
      (s.rejectWord why cmd payload).withHost ready received := by
  unfold State.rejectWord
  rw [State.withHost_fault]
  cases s.fault
  · cases why <;> rfl
  · rfl

theorem State.takeCommand_withHost :
    (s.withHost ready received).takeCommand = s.takeCommand.map (·.withHost ready received) := by
  have hs : (s.withHost ready received).stream = s.stream := rfl
  rw [State.takeCommand, State.takeCommand, hs]
  split
  · rfl
  · split
    · rfl
    · split
      · rfl
      · exact congrArg Event.settled ((s.tookCommand _ _).rejectWord_withHost ready received _ _ _)

end

section
variable {s t : State} (ready : Bool) (received : List Word)

theorem unlessFaulted_withHost {act act' : Host.Outcome State Fault Refusal}
    (h : unlessFaulted s act = .next t)
    (hact : act = .next t → act' = .next (t.withHost ready received)) :
    unlessFaulted (s.withHost ready received) act' = .next (t.withHost ready received) := by
  rcases unlessFaulted_next.1 h with ⟨hf, rfl⟩ | ⟨hf, ha⟩
  · exact unlessFaulted_next.2 (.inl ⟨hf, rfl⟩)
  · exact unlessFaulted_next.2 (.inr ⟨hf, hact ha⟩)

/-- No command depends on the host. -/
theorem exec_withHost {i : Instr} (h : exec i s = .next t) :
    exec i (s.withHost ready received) = .next (t.withHost ready received) := by
  cases i with
  | nop =>
    refine unlessFaulted_withHost ready received h fun ha => ?_
    cases ha
    rfl
  | wrreg reg data =>
    refine unlessFaulted_withHost ready received h fun ha => ?_
    rw [State.bind_writeReg_withHost]
    cases hw : (regAt reg).bind (s.writeReg data) <;> rw [hw] at ha <;> cases ha <;> rfl
  | rdreg reg =>
    rw [exec, execRdreg] at h ⊢
    cases hr : regAt reg with
    | none =>
      rw [hr] at h
      refine unlessFaulted_withHost ready received h fun ha => ?_
      cases ha
      rfl
    | some r =>
      rw [hr] at h
      cases h
      simp only [State.value_withHost]
      rfl
  | reinit fs =>
    refine unlessFaulted_withHost ready received h fun ha => ?_
    split at ha <;> cases ha
    · exact if_pos ‹_›
    · exact if_neg ‹_›
  | frame xs =>
    rw [exec, execFrame] at h ⊢
    split at h
    · rw [if_pos ‹_›]
      refine unlessFaulted_withHost ready received h fun ha => ?_
      split at ha <;> cases ha
      · exact if_pos ‹_›
      · exact if_neg ‹_›
    · cases h

end

/-- With the stream and the waiting responses split in another way, and beside another host, a step does
the same. -/
theorem step_of_same_words {s u t : State} (hs : s.Accepting) (hu : u.Accepting)
    (hstream : s.stream = u.stream)
    (hrecord : u = { s with taken := u.taken, cmdIn := u.cmdIn, rsp := u.rsp, rspReady := u.rspReady,
                            received := u.received })
    (h : step s = .next t) : step u = .next (t.withHost u.rspReady u.responses) := by
  have hwait : u.afterWait = s.afterWait.withHost u.rspReady u.responses := by
    rw [hs.afterWait_eq, hu.afterWait_eq, hstream]
    conv_lhs => rw [hrecord]
    rfl
  rw [step_of_accepting hu, ← u.takeCommand_afterWait, hwait, State.takeCommand_withHost]
  rw [step_of_accepting hs, ← s.takeCommand_afterWait] at h
  cases hc : s.afterWait.takeCommand with
  | settled v =>
    rw [hc] at h
    cases h
    rfl
  | run i v =>
    rw [hc] at h
    exact exec_withHost _ _ h

/-- Settles O12: the next states are one block beside two hosts, and the responses added are those that
wait in it. -/
theorem resultsDependOnTheWordsAlone : Obligations.ResultsDependOnTheWordsAlone := by
  intro s u t v hs hu hstream hrecord ht hv
  obtain rfl : t.withHost u.rspReady u.responses = v :=
    Host.Outcome.next.inj ((step_of_same_words hs hu hstream hrecord ht).symm.trans hv)
  refine ⟨rfl, rfl, t.rsp, ?_, rfl⟩
  rw [State.responses, step_received ht, hs.acceptResponses_received]

/-! ### 20_memory.md R75, 70_reset_and_hazards.md R249: waiting for words -/

theorem step_of_incomplete {s : State} (hs : s.Accepting) (hw : wordsIncomplete s.stream = true) :
    step s = .next s.afterWait := by
  obtain ⟨hnil, hcons⟩ := incompleteCommandWaits s hs
  rw [State.afterWait]
  cases hstream : s.stream with
  | nil => rw [hnil hstream, State.eq_of_stream_eq_nil (s.acceptResponses_stream.trans hstream)]
  | cons cmd rest =>
    rw [hstream] at hw
    exact hcons cmd rest hstream (of_decide_eq_true hw)

theorem State.Accepting.afterWait_offer {s : State} (h : s.Accepting) (ws : List Word) :
    (s.afterWait.offer ws).Accepting := by
  rw [h.afterWait_eq]
  exact ⟨h.1, .inr rfl⟩

/-- Waiting twice, with words offered in between, ends where waiting once for all of them does. -/
theorem State.Accepting.afterWait_offer_afterWait {s : State} (h : s.Accepting) (ws : List Word) :
    (s.afterWait.offer ws).afterWait = (s.offer ws).afterWait := by
  have hoffer : (s.offer ws).Accepting := h
  rw [(h.afterWait_offer ws).afterWait_eq, hoffer.afterWait_eq, h.afterWait_eq]
  simp [State.offer, State.stream, State.responses]

/-- Settles O11: the two steps take the next command from one state. -/
theorem waitingForWordsIsInvisible : Obligations.WaitingForWordsIsInvisible := by
  intro s t ws hs hw h
  obtain rfl := Host.Outcome.next.inj ((step_of_incomplete hs hw).symm.trans h)
  have hoffer : (s.offer ws).Accepting := hs
  rw [step_of_accepting hoffer, step_of_accepting (hs.afterWait_offer ws),
    ← State.takeCommand_afterWait, hs.afterWait_offer_afterWait, State.takeCommand_afterWait]

/-! ### 70_reset_and_hazards.md R244: a read after a target write -/

/-- Settles O49: the write leaves the clamped data as the target, and the read answers the target. -/
theorem readAfterTargetWrite : Obligations.ReadAfterTargetWrite := by
  refine fun s v hf => ⟨⟨_, _, exec_wrreg_mixTarget hf v, exec_rdreg_index .mixTarget _, ?_⟩, fun i =>
    ⟨_, _, exec_wrreg_gainTarget hf v i, exec_rdreg_index (.gainTarget i) _, ?_⟩⟩
  · simp only [State.value, Smoother.writeTarget_target]
  · simp only [State.value, Ten.get_set_self, Smoother.writeTarget_target]

/-! ### 70_reset_and_hazards.md R230 to R232: reset -/

theorem step_of_rstN_low {s : State} (h : s.rstN = false) : step s = .next s.resetEdge := by
  obtain ⟨t, ht⟩ := stepNeverStops s
  rw [ht, eq_resetEdge_of_step h ht]

theorem State.value_resetEdge (s : State) (r : Reg) :
    s.resetEdge.value r =
      match r with
      | .id => 0x534F4C46
      | .version => 1
      | .freq i => BitVec.ofNat 32 (Config.freq.get i)
      | _ => 0 := by
  cases r with
  | status => exact (by decide : State.reset.status = 0)
  | gainTarget i | gainCurrent i | gainLeft i =>
    rw [State.value, State.resetEdge_gain, State.reset, Ten.get_replicate]
    rfl
  | phase i | phaseInc i => exact Ten.get_replicate 0 i
  | _ => rfl

/-- Settles O56: the step is a reset edge, whose record is all zero, and the pins are those of
`rst_n` low. -/
theorem resetFromEveryState : Obligations.ResetFromEveryState := by
  intro s hr
  obtain ⟨_, _, hlow⟩ := outputPinsFollowTheState s
  obtain ⟨hvalid, hready, _⟩ := hlow hr
  exact ⟨⟨s.resetEdge, step_of_rstN_low hr, rfl, rfl, s.value_resetEdge⟩, hvalid, hready⟩

/-! ### 70_reset_and_hazards.md R246: back pressure -/

/-- Settles O13: a step that neither resets nor takes words does nothing, and the pins are those of
`rst_n` high. -/
theorem backPressureStallsTheBlock : Obligations.BackPressureStallsTheBlock := by
  intro s hr hready hrsp
  obtain ⟨_, hhigh, _⟩ := outputPinsFollowTheState s
  obtain ⟨hvalid, _, hstall⟩ := hhigh hr
  refine ⟨?_, hvalid.2 hrsp, rfl, hstall hready hrsp⟩
  rcases step_cases s with ⟨hr', _⟩ | ⟨_, _, _, e⟩ | ⟨_, hnil, _⟩
  · exact nomatch hr.symm.trans hr'
  · exact e
  · exact absurd (by simpa [hready] using hnil) hrsp

end Sys2Proof.Machine
